-- ==== Sys2Proof/Word.lean ====
section
/-! DEFINITION. The word types of the engine: bytes, 16-bit words, address immediates, register numbers
(00_scope.md R7, R10, R11). Every value is unsigned; the widths are fixed by the spec. -/

namespace Sys2Proof

/-- A byte: a general register, a timer, a memory cell, an `NN` immediate (R7 `V_WIDTH`, `TIMER_WIDTH`). -/
abbrev Byte := BitVec 8

/-- A 16-bit word: `I`, `PC`, a stack entry, an opcode (R7 `I_WIDTH`, `PC_WIDTH`, `OPCODE_WIDTH`). -/
abbrev Word := BitVec 16

/-- A 12-bit address immediate `NNN` (R101). -/
abbrev Addr12 := BitVec 12

/-- A general register number, `V0` to `VF` (R7 `NUM_V`, R30). -/
abbrev Reg := Fin 16

/-- A logical key number, 0x0 to 0xF (R7 `NUM_KEYS`, R41). -/
abbrev Key := Fin 16

end Sys2Proof
end

