-- ==== Sys2Proof/Syntax.lean ====
section
/-! DEFINITION. The instruction set: one constructor per row of spec/opcode_table.json (30_encoding.md R105), its
operands the fields of R101 the row uses. -/

namespace Sys2Proof

/-- The instruction descriptors of R104, R105. -/
inductive Instr where
  /-- `00E0` `CLS` (R201). -/
  | cls
  /-- `00EE` `RET` (R220). -/
  | ret
  /-- `0kkk` `SYS k`, other than `00E0` and `00EE`: the decode error (R239). -/
  | sys (nnn : Addr12)
  /-- `1kkk` `JP k` (R221). -/
  | jp (nnn : Addr12)
  /-- `2kkk` `CALL k` (R222). -/
  | call (nnn : Addr12)
  /-- `3xkk` `SE Vx, k` (R225). -/
  | seImm (x : Reg) (nn : Byte)
  /-- `4xkk` `SNE Vx, k` (R226). -/
  | sneImm (x : Reg) (nn : Byte)
  /-- `5xy0` `SE Vx, Vy` (R227). -/
  | seReg (x y : Reg)
  /-- `6xkk` `LD Vx, k` (R162). -/
  | ldImm (x : Reg) (nn : Byte)
  /-- `7xkk` `ADD Vx, k` (R163). -/
  | addImm (x : Reg) (nn : Byte)
  /-- `8xy0` `LD Vx, Vy` (R164). -/
  | ldReg (x y : Reg)
  /-- `8xy1` `OR Vx, Vy` (R171). -/
  | orReg (x y : Reg)
  /-- `8xy2` `AND Vx, Vy` (R172). -/
  | andReg (x y : Reg)
  /-- `8xy3` `XOR Vx, Vy` (R173). -/
  | xorReg (x y : Reg)
  /-- `8xy4` `ADD Vx, Vy` (R174). -/
  | addReg (x y : Reg)
  /-- `8xy5` `SUB Vx, Vy` (R175). -/
  | subReg (x y : Reg)
  /-- `8xy6` `SHR Vx {, Vy}` (R176); `y` is kept even where P_SHIFT_SRC ignores it (R106). -/
  | shr (x y : Reg)
  /-- `8xy7` `SUBN Vx, Vy` (R177). -/
  | subn (x y : Reg)
  /-- `8xyE` `SHL Vx {, Vy}` (R179); `y` is kept even where P_SHIFT_SRC ignores it (R106). -/
  | shl (x y : Reg)
  /-- `9xy0` `SNE Vx, Vy` (R228). -/
  | sneReg (x y : Reg)
  /-- `Akkk` `LD I, k` (R280). -/
  | ldI (nnn : Addr12)
  /-- `Bkkk` `JP V0, k` (R224). -/
  | jpV0 (nnn : Addr12)
  /-- `Cxkk` `RND Vx, k` (R180). -/
  | rnd (x : Reg) (nn : Byte)
  /-- `Dxyn` `DRAW Vx, Vy, n` (R202); `n` is a count of rows, 0 to 15. -/
  | draw (x y : Reg) (n : Fin 16)
  /-- `Ex9E` `SKP Vx` (R250). -/
  | skp (x : Reg)
  /-- `ExA1` `SKNP Vx` (R251). -/
  | sknp (x : Reg)
  /-- `Fx07` `LD Vx, DT` (R258). -/
  | ldVxDt (x : Reg)
  /-- `Fx0A` `LD Vx, K` (R253). -/
  | ldVxK (x : Reg)
  /-- `Fx15` `LD DT, Vx` (R259). -/
  | ldDtVx (x : Reg)
  /-- `Fx18` `LD ST, Vx` (R260). -/
  | ldStVx (x : Reg)
  /-- `Fx1E` `ADD I, Vx` (R281). -/
  | addI (x : Reg)
  /-- `Fx29` `LD F, Vx` (R282). -/
  | ldF (x : Reg)
  /-- `Fx33` `LD B, Vx` (R283). -/
  | ldB (x : Reg)
  /-- `Fx55` `LD [I], Vx` (R285). -/
  | ldMemVx (x : Reg)
  /-- `Fx65` `LD Vx, [I]` (R286). -/
  | ldVxMem (x : Reg)
  deriving DecidableEq, Repr

end Sys2Proof
end

