-- ==== Sys2Proof/WellFormed.lean ====
section
/-! DEFINITION. Which descriptors an opcode can decode to. The operand types already hold exactly the values of
their fields (R101); the one check left is that a `SYS` word is not the word of `CLS` or `RET` (R105, R239). -/

namespace Sys2Proof

/-- A descriptor that some word decodes to: `SYS` names every `0kkk` but `00E0` and `00EE` (R105, R239). -/
def Instr.wellFormed : Instr → Bool
  | .sys nnn => nnn != 0x0E0#12 && nnn != 0x0EE#12
  | .cls | .ret | .jp _ | .call _ => true
  | .seImm _ _ | .sneImm _ _ | .seReg _ _ | .sneReg _ _ => true
  | .ldImm _ _ | .addImm _ _ | .ldReg _ _ | .orReg _ _ | .andReg _ _ | .xorReg _ _ => true
  | .addReg _ _ | .subReg _ _ | .shr _ _ | .subn _ _ | .shl _ _ | .rnd _ _ => true
  | .ldI _ | .jpV0 _ | .draw _ _ _ | .skp _ | .sknp _ => true
  | .ldVxDt _ | .ldVxK _ | .ldDtVx _ | .ldStVx _ => true
  | .addI _ | .ldF _ | .ldB _ | .ldMemVx _ | .ldVxMem _ => true

end Sys2Proof
end

