-- ==== Sys2Proof/Config.lean ====
section
/-! DEFINITION. What an implementation fixes: the sizes of 00_scope.md R7, the named parameters of R8 (types only:
the defaults stand in Machine/Defaults.lean), and the one free value of the spec, the random byte of R9. -/

namespace Sys2Proof

/-- `MEM_SIZE`: 4096 bytes, addresses 0x000 to 0xFFF (R7, R70). -/
abbrev Config.memSize : Nat := 4096

/-- `PROGRAM_BASE`, where the ROM is loaded and where the reserved area ends (R7, R72). -/
abbrev Config.programBase : Nat := 0x200

/-- `MAX_ROM`: 3584 bytes (R7, R353). -/
abbrev Config.maxRom : Nat := 3584

/-- `STACK_DEPTH`: 16 return addresses (R7, R36). -/
abbrev Config.stackDepth : Nat := 16

/-- `FONT_SIZE`: 16 glyphs of 5 bytes at `FONT_BASE` = 0x000 (R7, R74). -/
abbrev Config.fontSize : Nat := 80

/-- `P_VF_ORDER`: which of result and flag is written last (R8, R160). -/
inductive VfOrder where
  | flagLast
  | resultLast
  deriving DecidableEq, Repr

/-- `P_SHIFT_SRC`: the register a shift reads (R8, R176, R179). -/
inductive ShiftSrc where
  | vx
  | vy
  deriving DecidableEq, Repr

/-- `P_LOGIC_VF`: what `OR`, `AND`, `XOR` do to `VF` (R8, R165). -/
inductive LogicVf where
  | unchanged
  | zero
  deriving DecidableEq, Repr

/-- `P_LDST_I`: what `Fx55` and `Fx65` do to `I` (R8, R287). -/
inductive LdstI where
  | unchanged
  | increment
  deriving DecidableEq, Repr

/-- `P_JUMP_OFFSET`: the offset register of `Bkkk` (R8, R224). -/
inductive JumpOffset where
  | v0
  | vx
  deriving DecidableEq, Repr

/-- `P_KEY_WAIT`: whether a held key or a fresh press completes `Fx0A` (R8, R253, R255). -/
inductive KeyWait where
  | level
  | edge
  deriving DecidableEq, Repr

/-- The two values of `P_RESERVED_WRITE` (R8, R81) and of `P_ODD_PC` (R8, R133). -/
inductive Policy where
  | fault
  | allow
  deriving DecidableEq, Repr

/-- The named parameters of R8: fixed for a run, read by no program and written by none (R45). -/
structure Params where
  vfOrder : VfOrder
  shiftSrc : ShiftSrc
  logicVf : LogicVf
  ldstI : LdstI
  jumpOffset : JumpOffset
  keyWait : KeyWait
  reservedWrite : Policy
  oddPc : Policy
  font : Vector Byte Config.fontSize
  deriving DecidableEq, Repr

/-- FREE VALUE (R9, R16, D15; log entry 2): the random byte of the `k`-th `Draw()` of a run. No body: nothing can
be proved of it but what holds for every byte. -/
opaque Config.draw : Nat → Byte

end Sys2Proof
end

