-- ==== Sys2Proof/Machine/Defaults.lean ====
section
/-! DEFINITION. The default values of the named parameters (00_scope.md R8) and the reset contents of memory
(20_memory.md R72, R75; 70_reset_and_hazards.md R354). -/

namespace Sys2Proof.Machine

/-- The default `P_FONT`: the conventional font, one glyph of 5 bytes a line, top row first (R75, D23). -/
def defaultFont : Vector Byte Config.fontSize :=
  #v[0xF0, 0x90, 0x90, 0x90, 0xF0,
     0x20, 0x60, 0x20, 0x20, 0x70,
     0xF0, 0x10, 0xF0, 0x80, 0xF0,
     0xF0, 0x10, 0xF0, 0x10, 0xF0,
     0x90, 0x90, 0xF0, 0x10, 0x10,
     0xF0, 0x80, 0xF0, 0x10, 0xF0,
     0xF0, 0x80, 0xF0, 0x90, 0xF0,
     0xF0, 0x10, 0x20, 0x40, 0x40,
     0xF0, 0x90, 0xF0, 0x90, 0xF0,
     0xF0, 0x90, 0xF0, 0x10, 0xF0,
     0xF0, 0x90, 0xF0, 0x90, 0x90,
     0xE0, 0x90, 0xE0, 0x90, 0xE0,
     0xF0, 0x80, 0x80, 0x80, 0xF0,
     0xE0, 0x90, 0x90, 0x90, 0xE0,
     0xF0, 0x80, 0xF0, 0x80, 0xF0,
     0xF0, 0x80, 0xF0, 0x80, 0x80]

/-- The default of every parameter of R8 (D4 to D11, D23). -/
def defaultParams : Params where
  vfOrder := .flagLast
  shiftSrc := .vx
  logicVf := .unchanged
  ldstI := .unchanged
  jumpOffset := .v0
  keyWait := .level
  reservedWrite := .fault
  oddPc := .fault
  font := defaultFont

/-- What a byte of memory holds after reset under a font: the font at 0x000 to 0x04F (R74, R351), 0x00 elsewhere
(R354). -/
def fontByte (font : Vector Byte Config.fontSize) (a : Nat) : Byte := font.toList.getD a 0x00#8

/-- What an address reads as that memory does not list: the reset contents under the default font (R47, R72, R75,
R354; log entry 4). -/
def unlistedByte (a : Nat) : Byte := fontByte defaultFont a

end Sys2Proof.Machine
end

