-- ==== Sys2Proof/Machine/State.lean ====
section
/-! DEFINITION. The state of the engine (10_state.md R30-R48), as plain data, its state after reset (R47), and the
ways a transaction can fail to answer a state. -/

namespace Sys2Proof.Machine

/-- Memory: the bytes that differ from `unlistedByte`, by strictly rising address (`Memory.wf`). -/
abbrev Memory := List Host.Cell

/-- The display: `disp[x][y]`, column first (R40). -/
abbrev Display := Vector (Vector Bool 32) 64

/-- The error kinds of 60_exceptions.md R311. -/
inductive ErrorKind where
  /-- The fetched word is `Unmapped` (R312). -/
  | decode
  /-- A fetch or data access beyond 0xFFF (R313). -/
  | bounds
  /-- `CALL` with 16 entries held (R314). -/
  | stackOverflow
  /-- `RET` with an empty stack (R314). -/
  | stackUnderflow
  /-- A write below 0x200 under `P_RESERVED_WRITE = fault` (R315). -/
  | reservedWrite
  /-- An odd `PC` under `P_ODD_PC = fault` (R315). -/
  | misalignedFetch
  /-- A ROM of more than 3584 bytes; `RESET` only, never recorded in `halt` (R353). -/
  | load
  deriving DecidableEq, Repr

/-- The fatal-error record `some(kind, opcode, addr, info)` (R44, R311). -/
structure FatalRecord where
  kind : ErrorKind
  opcode : Option Word
  addr : Word
  info : Option Nat
  deriving DecidableEq, Repr

/-- Every state element of 10_state.md, and two fields of the model's own: `params` (the configuration of R8,
log entry 1) and `draws` (the index of the next random byte, log entry 2). -/
structure State where
  /-- `V0` to `VF` (R30, R31). -/
  v : Vector Byte 16
  /-- `I` (R33). -/
  i : Word
  /-- `PC` (R34). -/
  pc : Word
  /-- `SP`, the number of entries in use, 0 to 16 (R36). -/
  sp : Fin 17
  /-- `stack[0..15]`, filled upward from index 0 (R36). -/
  stack : Vector Word 16
  /-- `DT` (R38). -/
  dt : Byte
  /-- `ST` (R39). -/
  st : Byte
  /-- `disp[x][y]` (R40). -/
  disp : Display
  /-- `key[0..15]`, the input latch (R41). -/
  key : Vector Bool 16
  /-- The awaiting-key sub-state (R42). -/
  await : Option Reg
  /-- `wait_prev[0..15]`, read only under `P_KEY_WAIT = edge` (R43). -/
  waitPrev : Vector Bool 16
  /-- The fatal-error record (R44). -/
  halt : Option FatalRecord
  /-- Memory 0x000 to 0xFFF (R70). -/
  mem : Memory
  /-- The model's own: the parameters of this run; nothing writes them (R8, R45). -/
  params : Params
  /-- The model's own: how many random bytes this run has drawn (R9). -/
  draws : Nat
  deriving DecidableEq, Repr

/-- How a transaction can end without a state. No instruction and no `STEP` raises one: a fatal step is a NEXT
state whose `halt` is set (R316; log entry 3). -/
inductive Fault where
  /-- `Fatal(Load)`, code 7: raised by the host transaction `RESET` alone, for a ROM of more than 3584 bytes; no
  machine is started (R353). Safe: the spec itself ends here. -/
  | load (romLength : Nat)
  deriving DecidableEq, Repr

/-- Why an instruction has no meaning. -/
inductive Refusal where
  /-- Raised by an arm of `exec` whose instruction is not modelled yet; no arm answers it. Safe: nothing is claimed
  of such an instruction. -/
  | notModelled (mnemonic : String)
  deriving DecidableEq, Repr

/-- The machine right after `RESET` with an empty ROM and the default parameters (R47, R350, R356). -/
def State.reset : State where
  v := Vector.replicate 16 0x00#8
  i := 0x0000#16
  pc := 0x0200#16
  sp := 0
  stack := Vector.replicate 16 0x0000#16
  dt := 0x00#8
  st := 0x00#8
  disp := Vector.replicate 64 (Vector.replicate 32 false)
  key := Vector.replicate 16 false
  await := none
  waitPrev := Vector.replicate 16 false
  halt := none
  mem := []
  params := defaultParams
  draws := 0

end Sys2Proof.Machine
end

