-- ==== Sys2Proof/Machine/Memory.lean ====
section
/-! DEFINITION. Memory as a canonical list of cells: reading and writing one byte (00_scope.md R14), the canonical
form, and runs of bytes in ascending address order (20_memory.md R70, R77, R85, R86). -/

namespace Sys2Proof.Machine

/-- `MemRead(a, 1)`: the byte at `a`, listed or as after reset (R14, R85). -/
def Memory.read : Memory → Nat → Byte
  | [], a => unlistedByte a
  | (b, u) :: rest, a => if a = b then u else Memory.read rest a

/-- Put a byte into the canonical list: sorted, and without an entry that says what an unlisted address reads as. -/
def Memory.insert : Memory → Nat → Byte → Memory
  | [], a, u => if u = unlistedByte a then [] else [(a, u)]
  | (b, t) :: rest, a, u =>
    if a < b then
      if u = unlistedByte a then (b, t) :: rest else (a, u) :: (b, t) :: rest
    else if a = b then
      if u = unlistedByte a then rest else (a, u) :: rest
    else (b, t) :: Memory.insert rest a u

/-- `MemWrite(a, 1, u)` (R14). An address above 0xFFF names no byte (R70); every instruction checks its range first
(R79, R81), so that case is never reached from a meaning. -/
def Memory.write (m : Memory) (a : Nat) (u : Byte) : Memory :=
  if a < Config.memSize then m.insert a u else m

/-- Write a run of bytes from `base` upward, in ascending address order (R86). -/
def Memory.writeRun (m : Memory) (base : Nat) : List Byte → Memory
  | [] => m
  | u :: rest => Memory.writeRun (m.write base u) (base + 1) rest

/-- Read `count` bytes from `base` upward. -/
def Memory.readRun (m : Memory) (base : Nat) : Nat → List Byte
  | 0 => []
  | count + 1 => m.read base :: Memory.readRun m (base + 1) count

/-- The canonical form: addresses strictly rising and below 4096, no entry equal to what the address reads as when
it is not listed. -/
def Memory.wf : Memory → Bool
  | [] => true
  | (a, u) :: rest =>
    decide (a < Config.memSize) && (u != unlistedByte a) && rest.all (fun c => decide (a < c.1)) && Memory.wf rest

end Sys2Proof.Machine
end

