-- ==== Sys2Proof/Machine/Ops.lean ====
section
/-! DEFINITION. The named operations every meaning is built from: the register file, the advance of `PC`, the range
checks (20_memory.md R79, R81), the fatal outcome (60_exceptions.md R316, the spec's trap entry; there is no return
from it, R320), the call stack (43_control_flow.md R220, R222), the fetch (40_execution_cycle.md R133, R134) and the
key latch (44_keys_timers.md R253-R256). -/

namespace Sys2Proof.Machine

/-- What an instruction answers. -/
abbrev Result := Host.Outcome State Fault Refusal

/-! ## Registers -/

/-- `V[x]` (R13, R30). -/
def State.readV (s : State) (x : Reg) : Byte := s.v[x]

/-- `V[x] <- b` (R13, R30). -/
def State.writeV (s : State) (x : Reg) (b : Byte) : State := { s with v := s.v.set x b }

/-- `PC <- addr + 2`, the advance that precedes every execution (R135). -/
def State.advance (s : State) : State := { s with pc := s.pc + 2#16 }

/-- `PC <- target` (R13). -/
def State.jump (s : State) (target : Word) : State := { s with pc := target }

/-- A skip: on top of the advance, 2 more when the condition holds (R229). -/
def State.skipIf (s : State) (cond : Bool) : State :=
  if cond then s.advance.advance else s.advance

/-- `I <- w`. -/
def State.writeI (s : State) (w : Word) : State := { s with i := w }

/-- `DT <- b` (R38). -/
def State.writeDT (s : State) (b : Byte) : State := { s with dt := b }

/-- `ST <- b` (R39). -/
def State.writeST (s : State) (b : Byte) : State := { s with st := b }

/-- Write a run of bytes to memory. -/
def State.store (s : State) (base : Nat) (bytes : List Byte) : State :=
  { s with mem := s.mem.writeRun base bytes }

/-! ## Fatal errors -/

/-- The kind and the extra value of `raise Fatal(kind, info)` (R15). -/
structure Cause where
  kind : ErrorKind
  info : Option Nat
  deriving DecidableEq, Repr

/-- The fatal outcome, the one way an error is taken: every element keeps its value from before the step and `halt`
records kind, opcode, the instruction's address and info (R141, R316, R318). `s` is the state before the step. -/
def State.fatal (s : State) (c : Cause) (opcode : Option Word) : State :=
  { s with halt := some { kind := c.kind, opcode := opcode, addr := s.pc, info := c.info } }

/-- An instruction's own `raise`: the record holds its opcode (R311). -/
def raise (s : State) (i : Instr) (c : Cause) : Result := .next (s.fatal c (some (encode i)))

/-- `CheckRange(base, count)`: the error of an access that passes 0xFFF, with the first out-of-range address
(R78, R79). -/
def checkRange (base count : Nat) : Option Cause :=
  if base + count - 1 > 0xFFF then some { kind := .bounds, info := some (max base 0x1000) } else none

/-- `CheckWritable(base, count)`: the bounds check, then the reserved area under `P_RESERVED_WRITE = fault` (R81). -/
def checkWritable (p : Params) (base count : Nat) : Option Cause :=
  match checkRange base count with
  | some c => some c
  | none =>
    if p.reservedWrite = .fault ∧ base < Config.programBase then
      some { kind := .reservedWrite, info := some base }
    else none

/-! ## The call stack -/

/-- Push a return address; none when 16 are held (R222, R223). -/
def State.push (s : State) (ret : Word) : Option State :=
  if h : s.sp.val < 16 then
    some { s with stack := s.stack.set s.sp.val ret, sp := ⟨s.sp.val + 1, by omega⟩ }
  else none

/-- Pop the top entry; none when the stack is empty. The entry itself is left as it was (R220). -/
def State.pop (s : State) : Option (Word × State) :=
  if h : 0 < s.sp.val then
    some (s.stack[s.sp.val - 1]'(by omega), { s with sp := ⟨s.sp.val - 1, by omega⟩ })
  else none

/-! ## Fetch -/

/-- The fetch checks in their order: bounds, then an odd address under `P_ODD_PC = fault` (R80, R133, R319). -/
def fetchCheck (p : Params) (pc : Word) : Option Cause :=
  if pc.toNat + 1 > 0xFFF then some { kind := .bounds, info := some pc.toNat }
  else if pc.toNat % 2 = 1 ∧ p.oddPc = .fault then some { kind := .misalignedFetch, info := some pc.toNat }
  else none

/-- `Fetch(a) = MemRead(a, 1) ++ MemRead(a + 1, 1)` (R84, R134). -/
def fetchWord (m : Memory) (a : Nat) : Word := joinBytes (m.read a) (m.read (a + 1))

/-- Lay an opcode in memory where the next fetch reads it (R82, R84). -/
def State.placeWord (s : State) (w : Word) : State :=
  s.store s.pc.toNat [highByte w, lowByte w]

/-! ## The input latch -/

/-- The keys that qualify at this sample of a wait (R254, R255). -/
def State.candidates (s : State) : Vector Bool 16 :=
  match s.params.keyWait with
  | .level => s.key
  | .edge => Vector.ofFn (fun k : Key => s.key[k] && !s.waitPrev[k])

/-- The lowest-numbered key of a set (R256). -/
def lowestKey (ks : Vector Bool 16) : Option Key := (List.finRange 16).find? (fun k => ks[k])

/-- A key number as a register value. -/
def keyByte (k : Key) : Byte := BitVec.ofNat 8 k.val

/-- `PollKey(x)`: a `STEP` while waiting only samples the latch (R132, R254). -/
def State.pollKey (s : State) (x : Reg) : State :=
  match lowestKey s.candidates with
  | some k => { (s.writeV x (keyByte k)).advance with await := none }
  | none =>
    match s.params.keyWait with
    | .level => s
    | .edge => { s with waitPrev := s.key }

end Sys2Proof.Machine
end

