-- ==== Sys2Proof/Machine/Cycle.lean ====
section
/-! DEFINITION. The part of `STEP` before execution (40_execution_cycle.md R131-R136): halted first, then a wait for
a key, then the fetch checks, the fetch and the decode, in that order. -/

namespace Sys2Proof.Machine

/-- What comes before execution: either the step is over, or a descriptor is to be executed. -/
inductive Front where
  /-- The step ends in this state, nothing was executed. -/
  | done (s : State)
  /-- Execute this descriptor (R137). -/
  | run (i : Instr)
  deriving DecidableEq, Repr

/-- The order of R144: `halt`, `await`, fetch checks, fetch, decode. A fetch error has no opcode to record (R311). -/
def State.front (s : State) : Front :=
  match s.halt, s.await with
  | some _, _ => .done s
  | none, some x => .done (s.pollKey x)
  | none, none =>
    match fetchCheck s.params s.pc with
    | some c => .done (s.fatal c none)
    | none =>
      let w := fetchWord s.mem s.pc.toNat
      match decode w with
      | .ok i => .run i
      | .error _ => .done (s.fatal { kind := .decode, info := none } (some w))

/-- The state in which the next step fetches an opcode given from outside: running, not waiting, the opcode in
memory at `PC` (log entry 5). -/
def State.withOpcode (s : State) (w : Word) : State := { s.placeWord w with halt := none, await := none }

end Sys2Proof.Machine
end

