-- ==== Sys2Proof/Machine/Operands.lean ====
section
/-! DEFINITION. Every operand form of the opcode map (30_encoding.md R102, R111): zero-extended immediates, the
shift source, the jump offset, key numbers, glyph addresses, decimal digits and sprite coordinates. -/

namespace Sys2Proof.Machine

/-- `zext_16(NNN)` (R102). -/
def zextAddr (nnn : Addr12) : Word := nnn.setWidth 16

/-- `zext_16(b)` (R11). -/
def zextByte (b : Byte) : Word := b.setWidth 16

/-- The source register of a shift: `x` under `P_SHIFT_SRC = vx`, `y` under `vy` (R176). -/
def shiftSource (p : Params) (x y : Reg) : Reg :=
  match p.shiftSrc with
  | .vx => x
  | .vy => y

/-- The offset register of `Bkkk`: `V0`, or `V[NNN[11:8]]` under `P_JUMP_OFFSET = vx` (R224). -/
def jumpOffsetReg (p : Params) (nnn : Addr12) : Reg :=
  match p.jumpOffset with
  | .v0 => 0
  | .vx => (nnn.extractLsb' 8 4).toFin

/-- The key a register value names: its low nibble (R252). -/
def keyNumber (b : Byte) : Key := (b.extractLsb' 0 4).toFin

/-- The glyph address of a register value: the low nibble times 5 (R74, R282). -/
def glyphAddress (b : Byte) : Word := zextByte (b &&& 0x0F#8) * 5#16

/-- Hundreds, tens and ones of a byte, in the order they are stored (R283). -/
def decimalDigits (b : Byte) : List Byte :=
  [BitVec.ofNat 8 (b.toNat / 100), BitVec.ofNat 8 (b.toNat / 10 % 10), BitVec.ofNat 8 (b.toNat % 10)]

/-- `V0` to `Vx`, the operands of `LD [I], Vx` in storing order (R285). -/
def firstRegs (s : State) (x : Reg) : List Byte := s.v.toList.take (x.val + 1)

/-- `I` after a block transfer of `V0` to `Vx` (R287). -/
def indexAfter (p : Params) (i : Word) (x : Reg) : Word :=
  match p.ldstI with
  | .unchanged => i
  | .increment => i + BitVec.ofNat 16 (x.val + 1)

/-- The column of a sprite bit: start column and bit column, modulo 64 (R204). -/
def spriteColumn (vx : Byte) (c : Nat) : Fin 64 := Fin.ofNat 64 (vx.toNat % 64 + c)

/-- The row of a sprite bit: start row and sprite row, modulo 32 (R204). -/
def spriteRow (vy : Byte) (r : Nat) : Fin 32 := Fin.ofNat 32 (vy.toNat % 32 + r)

end Sys2Proof.Machine
end

