-- ==== Sys2Proof/Machine/Flags.lean ====
section
/-! DEFINITION. Every flag computation: carry, not-borrow, the bit shifted out, and the order in which result and
flag are written (41_arithmetic.md R160, R165, R174-R179). Collision is computed by drawing (Machine/Display.lean). -/

namespace Sys2Proof.Machine

/-- `VF`, the flag register (R31). -/
def flagReg : Reg := 15

/-- A flag as the byte `VF` holds: 1 or 0 (R160). -/
def flagByte (b : Bool) : Byte := if b then 0x01#8 else 0x00#8

/-- Carry out of bit 7 of an exact sum (R174). -/
def carryOut (a b : Byte) : Bool := decide (a.toNat + b.toNat > 0xFF)

/-- Not-borrow of `a - b`: the minuend is at least the subtrahend (R178). -/
def notBorrow (a b : Byte) : Bool := decide (a.toNat ≥ b.toNat)

/-- Bit 0, shifted out by `SHR` (R176). -/
def lowBitOut (b : Byte) : Bool := b.getLsbD 0

/-- Bit 7, shifted out by `SHL` (R179). -/
def highBitOut (b : Byte) : Bool := b.getLsbD 7

/-- `WriteWithFlag(x, result, flag)`: the order of the two writes is `P_VF_ORDER` (R160). -/
def State.writeWithFlag (s : State) (x : Reg) (result : Byte) (flag : Bool) : State :=
  match s.params.vfOrder with
  | .flagLast => (s.writeV x result).writeV flagReg (flagByte flag)
  | .resultLast => (s.writeV flagReg (flagByte flag)).writeV x result

/-- `LogicResult(x, result)`: `VF` is left or zeroed by `P_LOGIC_VF` (R165). -/
def State.logicResult (s : State) (x : Reg) (result : Byte) : State :=
  match s.params.logicVf with
  | .unchanged => s.writeV x result
  | .zero => s.writeWithFlag x result false

end Sys2Proof.Machine
end

