-- ==== Sys2Proof/Machine/Arithmetic.lean ====
section
/-! DEFINITION. Register and arithmetic instructions (41_arithmetic.md R160-R181). Operands are read before the first
write (R161); none of them raises an error of its own, and each leaves `PC = addr + 2` (R139). -/

namespace Sys2Proof.Machine

/-- `6xkk` `LD Vx, NN` (R162). -/
def execLdImm (x : Reg) (nn : Byte) (s : State) : Result := .next (s.writeV x nn).advance

/-- `7xkk` `ADD Vx, NN`: modulo 256, no flag (R163). -/
def execAddImm (x : Reg) (nn : Byte) (s : State) : Result := .next (s.writeV x (s.readV x + nn)).advance

/-- `8xy0` `LD Vx, Vy` (R164). -/
def execLdReg (x y : Reg) (s : State) : Result := .next (s.writeV x (s.readV y)).advance

/-- `8xy1` `OR Vx, Vy` (R171, R165). -/
def execOrReg (x y : Reg) (s : State) : Result := .next (s.logicResult x (s.readV x ||| s.readV y)).advance

/-- `8xy2` `AND Vx, Vy` (R172, R165). -/
def execAndReg (x y : Reg) (s : State) : Result := .next (s.logicResult x (s.readV x &&& s.readV y)).advance

/-- `8xy3` `XOR Vx, Vy` (R173, R165). -/
def execXorReg (x y : Reg) (s : State) : Result := .next (s.logicResult x (s.readV x ^^^ s.readV y)).advance

/-- `8xy4` `ADD Vx, Vy`: modulo 256, carry to `VF` (R174). -/
def execAddReg (x y : Reg) (s : State) : Result :=
  .next (s.writeWithFlag x (s.readV x + s.readV y) (carryOut (s.readV x) (s.readV y))).advance

/-- `8xy5` `SUB Vx, Vy`: `Vx - Vy` modulo 256, not-borrow to `VF` (R175, R178). -/
def execSubReg (x y : Reg) (s : State) : Result :=
  .next (s.writeWithFlag x (s.readV x - s.readV y) (notBorrow (s.readV x) (s.readV y))).advance

/-- `8xy6` `SHR Vx {, Vy}`: one place right, the bit shifted out to `VF` (R176). -/
def execShr (x y : Reg) (s : State) : Result :=
  let b := s.readV (shiftSource s.params x y)
  .next (s.writeWithFlag x (b >>> 1) (lowBitOut b)).advance

/-- `8xy7` `SUBN Vx, Vy`: `Vy - Vx` modulo 256, not-borrow to `VF` (R177, R178). -/
def execSubn (x y : Reg) (s : State) : Result :=
  .next (s.writeWithFlag x (s.readV y - s.readV x) (notBorrow (s.readV y) (s.readV x))).advance

/-- `8xyE` `SHL Vx {, Vy}`: one place left, the bit shifted out to `VF` (R179). -/
def execShl (x y : Reg) (s : State) : Result :=
  let b := s.readV (shiftSource s.params x y)
  .next (s.writeWithFlag x (b <<< 1) (highBitOut b)).advance

/-- `Cxkk` `RND Vx, NN`: the next random byte, any byte at all, under the mask (R9, R180; log entry 2). -/
def execRnd (x : Reg) (nn : Byte) (s : State) : Result :=
  .next { (s.writeV x (Config.draw s.draws &&& nn)).advance with draws := s.draws + 1 }

end Sys2Proof.Machine
end

