-- ==== Sys2Proof/Machine/Control.lean ====
section
/-! DEFINITION. Control-flow instructions (43_control_flow.md R220-R239). Targets are not checked when they are
written to `PC`; the next fetch checks them (R230). -/

namespace Sys2Proof.Machine

/-- `00EE` `RET`: pop `PC`, or the fatal stack underflow (R220). -/
def execRet (s : State) : Result :=
  match s.pop with
  | some (target, t) => .next (t.jump target)
  | none => raise s .ret { kind := .stackUnderflow, info := none }

/-- `0kkk` `SYS NNN`: native calls are not executed; the step is the fatal decode error (R239). -/
def execSys (nnn : Addr12) (s : State) : Result := raise s (.sys nnn) { kind := .decode, info := none }

/-- `1kkk` `JP NNN` (R221). -/
def execJp (nnn : Addr12) (s : State) : Result := .next (s.jump (zextAddr nnn))

/-- `2kkk` `CALL NNN`: push `addr + 2`, or the fatal stack overflow (R222, R223). -/
def execCall (nnn : Addr12) (s : State) : Result :=
  match s.push (s.pc + 2#16) with
  | some t => .next (t.jump (zextAddr nnn))
  | none => raise s (.call nnn) { kind := .stackOverflow, info := none }

/-- `Bkkk` `JP V0, NNN`: the base plus the offset register (R224). -/
def execJpV0 (nnn : Addr12) (s : State) : Result :=
  .next (s.jump (zextAddr nnn + zextByte (s.readV (jumpOffsetReg s.params nnn))))

/-- `3xkk` `SE Vx, NN` (R225). -/
def execSeImm (x : Reg) (nn : Byte) (s : State) : Result := .next (s.skipIf (s.readV x == nn))

/-- `4xkk` `SNE Vx, NN` (R226). -/
def execSneImm (x : Reg) (nn : Byte) (s : State) : Result := .next (s.skipIf (s.readV x != nn))

/-- `5xy0` `SE Vx, Vy` (R227). -/
def execSeReg (x y : Reg) (s : State) : Result := .next (s.skipIf (s.readV x == s.readV y))

/-- `9xy0` `SNE Vx, Vy` (R228). -/
def execSneReg (x y : Reg) (s : State) : Result := .next (s.skipIf (s.readV x != s.readV y))

end Sys2Proof.Machine
end

