-- ==== Sys2Proof/Machine/DisplayOps.lean ====
section
/-! DEFINITION. Display instructions (42_display.md R200-R210): clearing, and XOR drawing of a sprite with collision,
bit by bit and row by row as the pseudocode of R202 runs. -/

namespace Sys2Proof.Machine

/-- `disp[px][py]` (R40). -/
def Display.pixel (d : Display) (px : Fin 64) (py : Fin 32) : Bool := d[px][py]

/-- `disp[px][py] <- b`. -/
def Display.setPixel (d : Display) (px : Fin 64) (py : Fin 32) (b : Bool) : Display :=
  d.set px (d[px].set py b)

/-- Every pixel off (R201). -/
def blankDisplay : Display := Vector.replicate 64 (Vector.replicate 32 false)

/-- Bit `7 - c` of a sprite byte: its column `c`, bit 7 leftmost (R203). -/
def spriteBit (b : Byte) (c : Nat) : Bool := b.getLsbD (7 - c)

/-- What drawing carries along: the display and whether a pixel went from on to off (R205). -/
abbrev DrawState := Display × Bool

/-- Draw column `c` of row `r`: a 1-bit flips its pixel and collides where the pixel was on; a 0-bit does nothing
(R202, R204, R205). -/
def drawBit (vx vy : Byte) (r : Nat) (b : Byte) (acc : DrawState) (c : Nat) : DrawState :=
  if spriteBit b c then
    let px := spriteColumn vx c
    let py := spriteRow vy r
    (acc.1.setPixel px py (!acc.1.pixel px py), acc.2 || acc.1.pixel px py)
  else acc

/-- Draw the 8 columns of row `r`, in order (R202). -/
def drawRow (vx vy : Byte) (r : Nat) (b : Byte) (acc : DrawState) : DrawState :=
  (List.range 8).foldl (drawBit vx vy r b) acc

/-- Draw a sprite's bytes as rows `r`, `r + 1`, … (R202, R203). -/
def drawRows (vx vy : Byte) : Nat → List Byte → DrawState → DrawState
  | _, [], acc => acc
  | r, b :: rest, acc => drawRows vx vy (r + 1) rest (drawRow vx vy r b acc)

/-- The check of `DRAW`: none for `n = 0` (R202, R206), else the whole sprite must lie in memory (R207). -/
def drawCheck (i : Word) (n : Nat) : Option Cause :=
  if n = 0 then none else checkRange i.toNat n

/-- `00E0` `CLS`: every pixel off, `VF` untouched (R201). -/
def execCls (s : State) : Result := .next { s with disp := blankDisplay }.advance

/-- `Dxyn` `DRAW Vx, Vy, n`: `n` bytes from `I` XORed onto the display at `(Vx mod 64, Vy mod 32)`, every pixel
wrapping; collision to `VF`, the last write (R202 to R207). -/
def execDraw (x y : Reg) (n : Fin 16) (s : State) : Result :=
  match drawCheck s.i n.val with
  | some c => raise s (.draw x y n) c
  | none =>
    let drawn := drawRows (s.readV x) (s.readV y) 0 (s.mem.readRun s.i.toNat n.val) (s.disp, false)
    .next ({ s with disp := drawn.1 }.writeV flagReg (flagByte drawn.2)).advance

end Sys2Proof.Machine
end

