-- ==== Sys2Proof/Machine/IndexMemory.lean ====
section
/-! DEFINITION. Index-register and memory instructions (45_index_memory.md R280-R287). The whole range is checked
before the first access, so a faulting instruction writes nothing (R284). -/

namespace Sys2Proof.Machine

/-- `Akkk` `LD I, NNN` (R280). -/
def execLdI (nnn : Addr12) (s : State) : Result := .next (s.writeI (zextAddr nnn)).advance

/-- `Fx1E` `ADD I, Vx`: modulo 65536, no flag, no range check (R281). -/
def execAddI (x : Reg) (s : State) : Result := .next (s.writeI (s.i + zextByte (s.readV x))).advance

/-- `Fx29` `LD F, Vx`: the glyph of the low nibble (R282). -/
def execLdF (x : Reg) (s : State) : Result := .next (s.writeI (glyphAddress (s.readV x))).advance

/-- `Fx33` `LD B, Vx`: hundreds, tens, ones to `I`, `I + 1`, `I + 2` (R283, R284). -/
def execLdB (x : Reg) (s : State) : Result :=
  match checkWritable s.params s.i.toNat 3 with
  | some c => raise s (.ldB x) c
  | none => .next (s.store s.i.toNat (decimalDigits (s.readV x))).advance

/-- `Fx55` `LD [I], Vx`: `V0` to `Vx` to `I` upward (R284, R285, R287). -/
def execLdMemVx (x : Reg) (s : State) : Result :=
  match checkWritable s.params s.i.toNat (x.val + 1) with
  | some c => raise s (.ldMemVx x) c
  | none => .next ((s.store s.i.toNat (firstRegs s x)).writeI (indexAfter s.params s.i x)).advance

/-- Load `V0` to `Vx` from memory upward from `base`; the other registers keep their values (R286). -/
def State.loadRegs (s : State) (base : Nat) (x : Reg) : State :=
  { s with v := s.v.mapIdx (fun k b => if k ≤ x.val then s.mem.read (base + k) else b) }

/-- `Fx65` `LD Vx, [I]`: `V0` to `Vx` from `I` upward (R284, R286, R287). -/
def execLdVxMem (x : Reg) (s : State) : Result :=
  match checkRange s.i.toNat (x.val + 1) with
  | some c => raise s (.ldVxMem x) c
  | none => .next ((s.loadRegs s.i.toNat x).writeI (indexAfter s.params s.i x)).advance

end Sys2Proof.Machine
end

