-- ==== Sys2Proof/Machine/KeysTimers.lean ====
section
/-! DEFINITION. Key and timer instructions (44_keys_timers.md R250-R260). -/

namespace Sys2Proof.Machine

/-- `Ex9E` `SKP Vx`: skip if the key `Vx` names is pressed (R250, R252). -/
def execSkp (x : Reg) (s : State) : Result := .next (s.skipIf s.key[keyNumber (s.readV x)])

/-- `ExA1` `SKNP Vx`: skip if it is not (R251, R252). -/
def execSknp (x : Reg) (s : State) : Result := .next (s.skipIf (!s.key[keyNumber (s.readV x)]))

/-- `Fx0A` `LD Vx, K`: under `level` a held key completes it at once, the lowest-numbered one; otherwise the engine
waits at this address, and under `edge` keeps the latch as the first previous sample (R253, R255, R256). -/
def execLdVxK (x : Reg) (s : State) : Result :=
  match s.params.keyWait, lowestKey s.key with
  | .level, some k => .next (s.writeV x (keyByte k)).advance
  | .level, none => .next { s with await := some x }
  | .edge, _ => .next { s with await := some x, waitPrev := s.key }

/-- `Fx07` `LD Vx, DT` (R258). -/
def execLdVxDt (x : Reg) (s : State) : Result := .next (s.writeV x s.dt).advance

/-- `Fx15` `LD DT, Vx` (R259). -/
def execLdDtVx (x : Reg) (s : State) : Result := .next (s.writeDT (s.readV x)).advance

/-- `Fx18` `LD ST, Vx` (R260). -/
def execLdStVx (x : Reg) (s : State) : Result := .next (s.writeST (s.readV x)).advance

end Sys2Proof.Machine
end

