-- ==== Sys2Proof/Machine/Step.lean ====
section
/-! DEFINITION. `STEP` (40_execution_cycle.md R130, R144): the front of the cycle, then `Execute`. Whether a step
returned Ok, Blocked or Fatal is read off the state it leaves (`State.status` in Machine/Transactions.lean; log
entry 3). -/

namespace Sys2Proof.Machine

/-- One `STEP` transaction. -/
def step (s : State) : Host.Outcome State Fault Refusal :=
  match s.front with
  | .done t => .next t
  | .run i => exec i s

/-- The state whose very next step runs the instruction of a table word (log entry 5). -/
def State.withFetchWord (s : State) (nbits w : Nat) : State := s.withOpcode (tableWord nbits w)

end Sys2Proof.Machine
end

