-- ==== Sys2Proof/Assembly.lean ====
section
/-! DEFINITION. The written form of an instruction (30_encoding.md R110, R111): conventional mnemonics with the
source's `DRAW`, a register as `V` and one hexadecimal digit, immediates in hexadecimal, destination first. It has
no effect on meanings (D35). -/

namespace Sys2Proof

/-- One hexadecimal digit. -/
def hexDigit (n : Nat) : String :=
  match ["0", "1", "2", "3", "4", "5", "6", "7", "8", "9", "A", "B", "C", "D", "E", "F"][n % 16]? with
  | some d => d
  | none => ""

/-- A register operand: `V0` to `VF` (R111). -/
def regText (x : Reg) : String := "V" ++ hexDigit x.val

/-- A byte immediate, as the source writes `0x05` (R111). -/
def byteText (nn : Byte) : String := "0x" ++ hexDigit (nn.toNat / 16) ++ hexDigit nn.toNat

/-- An address immediate in three hexadecimal digits (R111). -/
def addrText (nnn : Addr12) : String :=
  "0x" ++ hexDigit (nnn.toNat / 256) ++ hexDigit (nnn.toNat / 16) ++ hexDigit nnn.toNat

/-- A two-register form. -/
def pairText (name : String) (x y : Reg) : String := name ++ " " ++ regText x ++ ", " ++ regText y

/-- A register and byte form. -/
def immText (name : String) (x : Reg) (nn : Byte) : String := name ++ " " ++ regText x ++ ", " ++ byteText nn

/-- The written form of an instruction (R105 mnemonics, R111 operands); a shift is written with its `y`. -/
def Instr.text : Instr → String
  | .cls => "CLS"
  | .ret => "RET"
  | .sys nnn => "SYS " ++ addrText nnn
  | .jp nnn => "JP " ++ addrText nnn
  | .call nnn => "CALL " ++ addrText nnn
  | .seImm x nn => immText "SE" x nn
  | .sneImm x nn => immText "SNE" x nn
  | .seReg x y => pairText "SE" x y
  | .ldImm x nn => immText "LD" x nn
  | .addImm x nn => immText "ADD" x nn
  | .ldReg x y => pairText "LD" x y
  | .orReg x y => pairText "OR" x y
  | .andReg x y => pairText "AND" x y
  | .xorReg x y => pairText "XOR" x y
  | .addReg x y => pairText "ADD" x y
  | .subReg x y => pairText "SUB" x y
  | .shr x y => pairText "SHR" x y
  | .subn x y => pairText "SUBN" x y
  | .shl x y => pairText "SHL" x y
  | .sneReg x y => pairText "SNE" x y
  | .ldI nnn => "LD I, " ++ addrText nnn
  | .jpV0 nnn => "JP V0, " ++ addrText nnn
  | .rnd x nn => immText "RND" x nn
  | .draw x y n => pairText "DRAW" x y ++ ", " ++ toString n.val
  | .skp x => "SKP " ++ regText x
  | .sknp x => "SKNP " ++ regText x
  | .ldVxDt x => "LD " ++ regText x ++ ", DT"
  | .ldVxK x => "LD " ++ regText x ++ ", K"
  | .ldDtVx x => "LD DT, " ++ regText x
  | .ldStVx x => "LD ST, " ++ regText x
  | .addI x => "ADD I, " ++ regText x
  | .ldF x => "LD F, " ++ regText x
  | .ldB x => "LD B, " ++ regText x
  | .ldMemVx x => "LD [I], " ++ regText x
  | .ldVxMem x => "LD " ++ regText x ++ ", [I]"

end Sys2Proof
end

