-- ==== Sys2Proof/Machine/Transactions.lean ====
section
/-! DEFINITION. The host's transactions other than `STEP` (00_scope.md R12): `TICK` (60_exceptions.md R325), `KEY`
(R332), `RESET` (70_reset_and_hazards.md R350-R357), the reads `DISPLAY` and `TONE` (R330, R334), the status a `STEP`
returns (40_execution_cycle.md R130), and runs under any interleaving the host chooses (R335). -/

namespace Sys2Proof.Machine

/-- What a `STEP` returns to the host (R130). -/
inductive Status where
  | ok
  | blocked
  | fatal (r : FatalRecord)
  deriving DecidableEq, Repr

/-- The status of the step that left this state: Fatal with the record while halted (R131, R316), Blocked while
waiting (R253, R254), else Ok (log entry 3). -/
def State.status (s : State) : Status :=
  match s.halt, s.await with
  | some r, _ => .fatal r
  | none, some _ => .blocked
  | none, none => .ok

/-- The numeric code of an error kind (R311, D19). -/
def ErrorKind.code : ErrorKind → Nat
  | .decode => 1
  | .bounds => 2
  | .stackOverflow => 3
  | .stackUnderflow => 4
  | .reservedWrite => 5
  | .misalignedFetch => 6
  | .load => 7

/-- The error kind a fault stands for (R311). -/
def Fault.kind : Fault → ErrorKind
  | .load _ => .load

/-- One timer one tick later: down by 1, floored at 0 (R38, R325). -/
def tickTimer (b : Byte) : Byte := if b = 0x00#8 then b else b - 1#8

/-- `TICK`: both timers, unless halted (R317, R325). -/
def State.tick (s : State) : State :=
  match s.halt with
  | some _ => s
  | none => { s with dt := tickTimer s.dt, st := tickTimer s.st }

/-- `KEY(k, pressed)`: one flag of the latch, halted or not (R317, R332). -/
def State.setKey (s : State) (k : Key) (pressed : Bool) : State := { s with key := s.key.set k pressed }

/-- `DISPLAY`: the pixel the host reads (R330). -/
def State.display (s : State) (px : Fin 64) (py : Fin 32) : Bool := s.disp[px][py]

/-- `TONE = (ST != 0)` (R48, R334). -/
def State.tone (s : State) : Bool := s.st != 0x00#8

/-- Memory after `RESET`: 0x00, then the font at 0x000, then the ROM at 0x200 (R350 to R354). -/
def bootMemory (font : Vector Byte Config.fontSize) (rom : List Byte) : Memory :=
  (Memory.writeRun (Memory.writeRun [] 0 font.toList) Config.programBase rom)

/-- `RESET(rom)` on a machine (R350 to R357): the Load error for a ROM of more than 3584 bytes, else the state of a
fresh machine. The parameters are the machine's configuration and stay (R45); the draw counter goes on, so that no
random byte is used twice (log entry 2). -/
def State.load (s : State) (rom : List Byte) : Result :=
  if rom.length > Config.maxRom then .fault (.load rom.length)
  else .next { State.reset with mem := bootMemory s.params.font rom, params := s.params, draws := s.draws }

/-- The transactions a host can issue (R12). -/
inductive Transaction where
  | reset (rom : List Byte)
  | step
  | tick
  | key (k : Key) (pressed : Bool)
  deriving DecidableEq, Repr

/-- One transaction (R12). -/
def transact (s : State) : Transaction → Result
  | .reset rom => s.load rom
  | .step => Sys2Proof.Machine.step s
  | .tick => .next s.tick
  | .key k pressed => .next (s.setKey k pressed)

/-- A host's schedule of transactions, in any interleaving (R12, R335), stopping where no machine is left. -/
def runSchedule : List Transaction → State → Result
  | [], s => .next s
  | t :: rest, s =>
    match transact s t with
    | .next u => runSchedule rest u
    | .fault r => .fault r
    | .refused r => .refused r

end Sys2Proof.Machine
end

