-- ==== Sys2Proof/Safety.lean ====
section
/-! DEFINITION. The terms claims are stated in: what a transition leaves unchanged, what registers hold after a
flagged write, which pixels a sprite covers, the classes of instructions of the whole-machine rules, the invariants,
and what a run cannot observe. -/

namespace Sys2Proof.Machine

/-! ## Frames -/

/-- The parts of the state a frame speaks of. -/
inductive Part where
  | v | i | pc | stack | dt | st | disp | key | await | waitPrev | halt | mem | params | draws
  deriving DecidableEq, Repr

/-- A part is the same in two states; memory through the read of every single byte. -/
def Part.same (s t : State) : Part → Prop
  | .v => t.v = s.v
  | .i => t.i = s.i
  | .pc => t.pc = s.pc
  | .stack => t.sp = s.sp ∧ t.stack = s.stack
  | .dt => t.dt = s.dt
  | .st => t.st = s.st
  | .disp => t.disp = s.disp
  | .key => t.key = s.key
  | .await => t.await = s.await
  | .waitPrev => t.waitPrev = s.waitPrev
  | .halt => t.halt = s.halt
  | .mem => ∀ a, t.mem.read a = s.mem.read a
  | .params => t.params = s.params
  | .draws => t.draws = s.draws

/-- The frame of a transition: every part but the listed ones is the same. -/
def FrameBut (changed : List Part) (s t : State) : Prop := ∀ p : Part, p ∉ changed → p.same s t

/-- Every general register but `x` is the same. -/
def SameRegsBut (x : Reg) (s t : State) : Prop := ∀ k : Reg, k ≠ x → t.v[k] = s.v[k]

/-- Every byte of memory outside the `count` bytes from `base` is the same. -/
def SameMemoryOutside (base count : Nat) (s t : State) : Prop :=
  ∀ a, a < base ∨ base + count ≤ a → t.mem.read a = s.mem.read a

/-! ## Registers after a write of result and flag -/

/-- What register `k` holds after `result` goes to `Vx` and `flag` to `VF`: where `x = F`, the one `P_VF_ORDER`
writes last (R160). -/
def flaggedReg (s : State) (x : Reg) (result : Byte) (flag : Bool) (k : Reg) : Byte :=
  if k = 15 ∧ (x ≠ 15 ∨ s.params.vfOrder = .flagLast) then (if flag then 1#8 else 0#8)
  else if k = x then result
  else s.v[k]

/-- What register `k` holds after a logic operation: `VF` is zeroed only under `P_LOGIC_VF = zero` (R165). -/
def logicReg (s : State) (x : Reg) (result : Byte) (k : Reg) : Byte :=
  if s.params.logicVf = .zero then flaggedReg s x result false k
  else if k = x then result
  else s.v[k]

/-! ## Sprites -/

/-- A 1-bit of the sprite of `n` rows at `I` lands on pixel `(px, py)` (R202, R203, R204). -/
def spriteCovers (m : Memory) (i vx vy n : Nat) (px : Fin 64) (py : Fin 32) : Bool :=
  (List.range n).any fun r => (List.range 8).any fun c =>
    (m.read (i + r)).getLsbD (7 - c) && px.val == (vx % 64 + c) % 64 && py.val == (vy % 32 + r) % 32

/-- The sprite bytes a `DRAW` reads all lie in memory, or it reads none (R206, R207). -/
def spriteInMemory (s : State) (n : Fin 16) : Prop := n.val = 0 ∨ s.i.toNat + n.val ≤ 0x1000

/-- The bytes an instruction stores from `I` on lie in memory and outside a protected reserved area (R79, R81). -/
def storeAllowed (s : State) (count : Nat) : Prop :=
  s.i.toNat + count ≤ 0x1000 ∧ (0x200 ≤ s.i.toNat ∨ s.params.reservedWrite = .allow)

/-- `PC` may be fetched from (R80, R133). -/
def fetchable (s : State) : Prop :=
  s.pc.toNat + 1 ≤ 0xFFF ∧ (s.pc.toNat % 2 = 0 ∨ s.params.oddPc = .allow)

/-- The opcode at `PC`: the byte at the lower address is the high one (R82, R84). -/
def opcodeAt (s : State) : Word :=
  BitVec.ofNat 16 (256 * (s.mem.read s.pc.toNat).toNat + (s.mem.read (s.pc.toNat + 1)).toNat)

/-- The step is running: neither halted nor waiting, so it fetches (R131, R132). -/
def running (s : State) : Prop := s.halt = none ∧ s.await = none

/-- A step from `s` executes the descriptor `i` (R137). -/
def executes (s : State) (i : Instr) : Prop := running s ∧ fetchable s ∧ decode (opcodeAt s) = .ok i

/-- The state a fatal error leaves: the record is all that changes (R141, R316). -/
def fatalState (s : State) (kind : ErrorKind) (opcode : Option Word) (info : Option Nat) : State :=
  { s with halt := some { kind := kind, opcode := opcode, addr := s.pc, info := info } }

/-! ## Classes of instructions -/

/-- The instructions whose `PC` afterwards is not always `addr + 2`: jumps, calls, returns, skips, the key wait and
the decode error (R138, R139). -/
def steersPc : Instr → Bool
  | .jp _ | .jpV0 _ | .call _ | .ret | .sys _ => true
  | .seImm _ _ | .sneImm _ _ | .seReg _ _ | .sneReg _ _ | .skp _ | .sknp _ => true
  | .ldVxK _ => true
  | .cls | .draw _ _ _ => false
  | .ldImm _ _ | .addImm _ _ | .ldReg _ _ | .orReg _ _ | .andReg _ _ | .xorReg _ _ => false
  | .addReg _ _ | .subReg _ _ | .shr _ _ | .subn _ _ | .shl _ _ | .rnd _ _ => false
  | .ldVxDt _ | .ldDtVx _ | .ldStVx _ | .ldI _ | .addI _ | .ldF _ => false
  | .ldB _ | .ldMemVx _ | .ldVxMem _ => false

/-- Whether an instruction may write a general register (R32's table, with `VF` for the logic operations only under
`P_LOGIC_VF = zero`). -/
def mayWrite (p : Params) : Instr → Reg → Prop
  | .ldImm x _, k | .addImm x _, k | .ldReg x _, k | .rnd x _, k | .ldVxDt x, k | .ldVxK x, k => k = x
  | .addReg x _, k | .subReg x _, k | .shr x _, k | .subn x _, k | .shl x _, k => k = x ∨ k = 15
  | .orReg x _, k | .andReg x _, k | .xorReg x _, k => k = x ∨ (k = 15 ∧ p.logicVf = .zero)
  | .draw _ _ _, k => k = 15
  | .ldVxMem x, k => k ≤ x
  | .cls, _ | .ret, _ | .sys _, _ | .jp _, _ | .call _, _ | .jpV0 _, _ => False
  | .seImm _ _, _ | .sneImm _ _, _ | .seReg _ _, _ | .sneReg _ _, _ | .skp _, _ | .sknp _, _ => False
  | .ldDtVx _, _ | .ldStVx _, _ | .ldI _, _ | .addI _, _ | .ldF _, _ | .ldB _, _ | .ldMemVx _, _ => False

/-! ## Invariants -/

/-- Memory keeps its canonical form. -/
def State.MemOk (s : State) : Prop := s.mem.wf = true

/-- While the engine waits for a key it runs, and `PC` holds the address of the `LD Vx, K` it waits in (R42, R254). -/
def State.WaitOk (s : State) : Prop :=
  ∀ x, s.await = some x → s.halt = none ∧ fetchable s ∧ opcodeAt s = encode (.ldVxK x)

/-- A fatal record names the instruction at `PC`, is no load error, and the engine does not wait (R141, R311, R318,
R319). -/
def State.HaltOk (s : State) : Prop :=
  ∀ r, s.halt = some r → r.addr = s.pc ∧ r.kind ≠ .load ∧ s.await = none

/-- No `PC` above 0x10FE, no return address in use above 0x1000 (R35). -/
def State.PcOk (s : State) : Prop :=
  s.pc.toNat ≤ 0x10FE ∧ ∀ j : Fin 16, j.val < s.sp.val → (s.stack[j]).toNat ≤ 0x1000

/-- Under `P_RESERVED_WRITE = fault` the reserved area holds what reset put there (R72, R81). -/
def State.ReservedOk (s : State) : Prop :=
  s.params.reservedWrite = .fault → ∀ a, a < 0x200 → s.mem.read a = fontByte s.params.font a

/-- All of them. -/
def State.Inv (s : State) : Prop := s.MemOk ∧ s.WaitOk ∧ s.HaltOk ∧ s.PcOk ∧ s.ReservedOk

/-- A safe run's state: no fatal error has happened. -/
def State.Safe (s : State) : Prop := s.halt = none

/-! ## What no step reads -/

/-- The states differ at most in what no instruction reads: `ST` (R39), stack entries not in use (R37), and
`wait_prev` under `P_KEY_WAIT = level` (R43). -/
def SameButUnread (s t : State) : Prop :=
  t = { s with st := t.st, stack := t.stack, waitPrev := t.waitPrev } ∧
    (∀ j : Fin 16, j.val < s.sp.val → t.stack[j] = s.stack[j]) ∧
    (s.params.keyWait = .edge → t.waitPrev = s.waitPrev)

end Sys2Proof.Machine
end

