-- ==== Sys2Proof/Certificates/Slice0/Obligations.lean ====
section
/-! DEFINITION. The statements for the provers, from the numbered rules of spec/. A statement about instructions says
what `exec` answers for every state (or for every state that meets the stated conditions), what the next state holds,
and its frame. Fatal outcomes are next states whose `halt` is set (log entry 3); parameters are quantified over, since
they stand in the state (log entry 1). -/

open Sys2Proof Sys2Proof.Machine

/-! ## Encoding (30_encoding.md) -/

/-- R105, R101: a few opcodes written out bit by bit, one or more of every family, are read as the instructions they
stand for (0x6005 and 0x7003 are the source's own; the spec marks the other encodings as general knowledge). -/
def Obligations.DecodesWrittenOutWords : Prop :=
  decode 0b0110000000000101#16 = .ok (.ldImm 0 0x05#8) ∧
  decode 0b0111000000000011#16 = .ok (.addImm 0 0x03#8) ∧
  decode 0b1000000100100100#16 = .ok (.addReg 1 2) ∧
  decode 0b0000000011100000#16 = .ok .cls ∧
  decode 0b1101000100100101#16 = .ok (.draw 1 2 5) ∧
  decode 0b0010001100000000#16 = .ok (.call 0x300#12) ∧
  decode 0b0101000100100000#16 = .ok (.seReg 1 2) ∧
  decode 0b0000000100100011#16 = .ok (.sys 0x123#12) ∧
  decode 0b1110000110011110#16 = .ok (.skp 1) ∧
  decode 0b1111001000001010#16 = .ok (.ldVxK 2) ∧
  decode 0b1010001000001010#16 = .ok (.ldI 0x20A#12) ∧
  decode 0b1111001001010101#16 = .ok (.ldMemVx 2)

/-- R104, R105: every well-formed descriptor, with every operand at every value its field admits, is what its own
opcode decodes to. -/
def Obligations.DecodeOfEncodeIsInstruction : Prop :=
  ∀ i : Instr, i.wellFormed = true → decode (encode i) = .ok i

/-- R104, R105, R107: a word that decodes is the opcode of its descriptor, so no two words share a descriptor and no
bit of a word is dropped; and only well-formed descriptors come out. -/
def Obligations.EncodeOfDecodeIsWord : Prop :=
  ∀ (w : Word) (i : Instr), decode w = .ok i → encode i = w ∧ i.wellFormed = true

/-- R107 (derived there from R105): the words the decoder rejects are exactly the rows of R107's table, each under
its own name, and the `SYS` words are the family-0 words other than 00E0 and 00EE. -/
def Obligations.UnmappedWordsAreTheListedOnes : Prop :=
  ∀ w : Word,
    (decode w = .error .family5 ↔ w.toNat / 4096 = 5 ∧ w.toNat % 16 ≠ 0) ∧
    (decode w = .error .family8 ↔ w.toNat / 4096 = 8 ∧ w.toNat % 16 ∈ [8, 9, 10, 11, 12, 13, 15]) ∧
    (decode w = .error .family9 ↔ w.toNat / 4096 = 9 ∧ w.toNat % 16 ≠ 0) ∧
    (decode w = .error .familyE ↔ w.toNat / 4096 = 14 ∧ w.toNat % 256 ∉ [0x9E, 0xA1]) ∧
    (decode w = .error .familyF ↔ w.toNat / 4096 = 15 ∧
      w.toNat % 256 ∉ [0x07, 0x0A, 0x15, 0x18, 0x1E, 0x29, 0x33, 0x55, 0x65]) ∧
    decode w ≠ .error .tooShort ∧
    ((∃ nnn, decode w = .ok (.sys nnn)) ↔ w.toNat / 4096 = 0 ∧ w.toNat ≠ 0x00E0 ∧ w.toNat ≠ 0x00EE)

/-! ## The cycle (40_execution_cycle.md) -/

/-- R82, R84, R134, R137: a running engine whose `PC` may be fetched from, and whose two bytes there (the lower
address high) decode, executes exactly that descriptor; the step adds nothing around `exec`. -/
def Obligations.StepRunsDecodedInstruction : Prop :=
  ∀ (s : State) (i : Instr), s.halt = none → s.await = none → s.pc.toNat + 1 ≤ 0xFFF →
    (s.pc.toNat % 2 = 0 ∨ s.params.oddPc = .allow) →
    decode (BitVec.ofNat 16 (256 * (s.mem.read s.pc.toNat).toNat + (s.mem.read (s.pc.toNat + 1)).toNat)) = .ok i →
    step s = exec i s

/-- R84, R90: an instruction laid in memory at `PC` is the one the very next step runs, from every state with
canonical memory and a `PC` that may be fetched from. -/
def Obligations.PlacedInstructionRunsNext : Prop :=
  ∀ (s : State) (i : Instr), s.MemOk → fetchable s → i.wellFormed = true →
    step (s.withFetchWord 16 (encode i).toNat) = exec i (s.withFetchWord 16 (encode i).toNat)

/-- R131, R317 (decision D30): while halted, `STEP` and `TICK` change nothing, the step's status is the recorded error
again, and `KEY` still writes the latch and only it. -/
def Obligations.HaltedIsAbsorbing : Prop :=
  ∀ (s : State) (r : FatalRecord), s.halt = some r →
    step s = .next s ∧ s.status = .fatal r ∧ s.tick = s ∧
    ∀ (k : Key) (b : Bool), (s.setKey k b).key[k] = b ∧ FrameBut [.key] s (s.setKey k b)

/-- R132, R254, R255, R256 (decision D9): a step while waiting fetches nothing and samples the latch: with no
qualifying key it stays (under `edge` keeping the sample), else the lowest qualifying key is loaded, the wait ends and
`PC` moves on by 2. -/
def Obligations.WaitingStepPollsLatch : Prop :=
  ∀ (s : State) (x : Reg), s.halt = none → s.await = some x →
    ((∀ k : Key, s.key[k] = false ∨ (s.params.keyWait = .edge ∧ s.waitPrev[k] = true)) →
      ∃ t, step s = .next t ∧ t.status = .blocked ∧
        (s.params.keyWait = .level → t = s) ∧
        (s.params.keyWait = .edge → t.waitPrev = s.key ∧ FrameBut [.waitPrev] s t)) ∧
    (∀ k : Key, s.key[k] = true → (s.params.keyWait = .edge → s.waitPrev[k] = false) →
      (∀ j : Key, j < k → s.key[j] = false ∨ (s.params.keyWait = .edge ∧ s.waitPrev[j] = true)) →
      ∃ t, step s = .next t ∧ t.status = .ok ∧ (t.v[x]).toNat = k.val ∧ SameRegsBut x s t ∧
        t.await = none ∧ t.pc = s.pc + 2#16 ∧ FrameBut [.v, .pc, .await] s t)

/-- R80, R133, R136, R319 (decisions D11, D20): the errors before execution, in their order. A `PC` of 0xFFF or more
is a bounds error, odd or not; an odd one is misaligned under `P_ODD_PC = fault`; an unmapped word is a decode error. -/
def Obligations.FetchErrorsInOrder : Prop :=
  ∀ s : State, running s →
    (s.pc.toNat ≥ 0xFFF → step s = .next (fatalState s .bounds none (some s.pc.toNat))) ∧
    (s.pc.toNat < 0xFFF → s.pc.toNat % 2 = 1 → s.params.oddPc = .fault →
      step s = .next (fatalState s .misalignedFetch none (some s.pc.toNat))) ∧
    (fetchable s → (∃ e, decode (opcodeAt s) = .error e) →
      step s = .next (fatalState s .decode (some (opcodeAt s)) none))

/-- R130: a `STEP` always ends in a state, whose status is Ok, Blocked or Fatal; no instruction is left without a
meaning and none stops the model. -/
def Obligations.EveryStepAnswersAState : Prop :=
  ∀ s : State, ∃ t, step s = .next t

/-- R141, R316, R318 (decision D18): a step that raises a fatal error keeps none of its writes: the record is all
that changes, it names the instruction at `PC`, and its opcode is the fetched word unless the fetch itself failed. -/
def Obligations.FatalStepRollsBack : Prop :=
  ∀ (s t : State) (r : FatalRecord), s.halt = none → step s = .next t → t.halt = some r →
    t = { s with halt := some r } ∧ t.status = .fatal r ∧ r.addr = s.pc ∧ r.kind ≠ .load ∧
    r.opcode = if s.pc.toNat + 1 ≤ 0xFFF ∧ (s.pc.toNat % 2 = 0 ∨ s.params.oddPc = .allow) then some (opcodeAt s) else none

/-- R135, R138, R139 (derived there): every instruction but the jumps, `CALL`, `RET`, the skips, the key wait and
`SYS` leaves `PC = addr + 2` when it raises no error; a skip leaves `addr + 2` or `addr + 4`. -/
def Obligations.NormalInstructionsAdvanceByTwo : Prop :=
  ∀ (i : Instr) (s t : State), exec i s = .next t → t.halt = none →
    (steersPc i = false → t.pc = s.pc + 2#16) ∧
    ((∃ x nn y, i = .seImm x nn ∨ i = .sneImm x nn ∨ i = .seReg x y ∨ i = .sneReg x y ∨ i = .skp x ∨ i = .sknp x) →
      t.pc = s.pc + 2#16 ∨ t.pc = s.pc + 4#16)

/-- R143: no step changes `DT` but one that executes `LD DT, Vx`, and none changes `ST` but one that executes
`LD ST, Vx`; of the other transactions on a machine, `KEY` changes neither, so the decrement is `TICK`'s alone. -/
def Obligations.TimersChangeOnlyByTheirInstructions : Prop :=
  ∀ s t : State,
    (step s = .next t →
      (t.dt = s.dt ∨ ∃ x, executes s (.ldDtVx x)) ∧ (t.st = s.st ∨ ∃ x, executes s (.ldStVx x))) ∧
    (∀ (k : Key) (b : Bool), (s.setKey k b).dt = s.dt ∧ (s.setKey k b).st = s.st)

/-- R77, R89: memory changes in a step only where it executes `LD B, Vx` or `LD [I], Vx`; `TICK` and `KEY` never
touch it. -/
def Obligations.MemoryChangesOnlyByStores : Prop :=
  ∀ s t : State,
    (step s = .next t → t.mem = s.mem ∨ (∃ x, executes s (.ldB x)) ∨ ∃ x, executes s (.ldMemVx x)) ∧
    s.tick.mem = s.mem ∧ ∀ (k : Key) (b : Bool), (s.setKey k b).mem = s.mem

/-- R40, R200: the display changes in a step only where it executes `CLS` or `DRAW`; `TICK` and `KEY` never touch
it. -/
def Obligations.DisplayChangesOnlyByDisplayInstructions : Prop :=
  ∀ s t : State,
    (step s = .next t → t.disp = s.disp ∨ executes s .cls ∨ ∃ x y n, executes s (.draw x y n)) ∧
    s.tick.disp = s.disp ∧ ∀ (k : Key) (b : Bool), (s.setKey k b).disp = s.disp

/-- R37, R41, R45, R142: the call stack changes in a step only where it executes `CALL` or `RET`; no step writes the
latch, and no transaction but `RESET` of another machine writes the parameters. -/
def Obligations.StackLatchAndParametersAreGuarded : Prop :=
  ∀ s t : State, step s = .next t →
    ((t.sp = s.sp ∧ t.stack = s.stack) ∨ (∃ nnn, executes s (.call nnn)) ∨ executes s .ret) ∧
    t.key = s.key ∧ t.params = s.params

/-- R32 (derived there): an instruction changes no general register but those its row of R32's table names. -/
def Obligations.RegisterWritesFollowTheTable : Prop :=
  ∀ (i : Instr) (s t : State) (k : Reg), exec i s = .next t → ¬ mayWrite s.params i k → t.v[k] = s.v[k]

/-! ## Register and arithmetic instructions (41_arithmetic.md) -/

/-- R162: `6xkk`, mask 0xF000, match 0x6000; `V[x] <- NN`; no flag, `VF` written only as `Vx`; no exception. -/
def Obligations.LoadImmediateSetsRegister : Prop :=
  ∀ (x : Reg) (nn : Byte) (s : State),
    encode (.ldImm x nn) &&& 0xF000#16 = 0x6000#16 ∧ decode (encode (.ldImm x nn)) = .ok (.ldImm x nn) ∧
    ∃ t, exec (.ldImm x nn) s = .next t ∧ t.v[x] = nn ∧ SameRegsBut x s t ∧ t.pc = s.pc + 2#16 ∧
      FrameBut [.v, .pc] s t

/-- R163 (its "no flag" is marked general knowledge there), R164: `ADD Vx, NN` adds modulo 256 and discards the carry;
`LD Vx, Vy` copies. -/
def Obligations.AddImmediateAndCopySetRegister : Prop :=
  ∀ (x y : Reg) (nn : Byte) (s : State),
    (∃ t, exec (.addImm x nn) s = .next t ∧ (t.v[x]).toNat = ((s.v[x]).toNat + nn.toNat) % 256 ∧ SameRegsBut x s t ∧
      t.pc = s.pc + 2#16 ∧ FrameBut [.v, .pc] s t) ∧
    (∃ t, exec (.ldReg x y) s = .next t ∧ t.v[x] = s.v[y] ∧ SameRegsBut x s t ∧ t.pc = s.pc + 2#16 ∧
      FrameBut [.v, .pc] s t)

/-- R165, R171, R172, R173 (decision D6): the logic operations, bit by bit, with `VF` left or zeroed by
`P_LOGIC_VF`. -/
def Obligations.LogicOperationsWorkBitwise : Prop :=
  ∀ (x y : Reg) (s : State), ∃ orR andR xorR : Byte,
    (∀ b < 8, orR.getLsbD b = ((s.v[x]).getLsbD b || (s.v[y]).getLsbD b) ∧
      andR.getLsbD b = ((s.v[x]).getLsbD b && (s.v[y]).getLsbD b) ∧
      xorR.getLsbD b = ((s.v[x]).getLsbD b != (s.v[y]).getLsbD b)) ∧
    (∃ t, exec (.orReg x y) s = .next t ∧ (∀ k : Reg, t.v[k] = logicReg s x orR k) ∧ t.pc = s.pc + 2#16 ∧
      FrameBut [.v, .pc] s t) ∧
    (∃ t, exec (.andReg x y) s = .next t ∧ (∀ k : Reg, t.v[k] = logicReg s x andR k) ∧ t.pc = s.pc + 2#16 ∧
      FrameBut [.v, .pc] s t) ∧
    (∃ t, exec (.xorReg x y) s = .next t ∧ (∀ k : Reg, t.v[k] = logicReg s x xorR k) ∧ t.pc = s.pc + 2#16 ∧
      FrameBut [.v, .pc] s t)

/-- R160, R161, R174 (decision D4): the sum modulo 256 to `Vx` and the carry to `VF`, from the operands' values
before the instruction, for every aliasing and both write orders. -/
def Obligations.AddRegistersSetsCarry : Prop :=
  ∀ (x y : Reg) (s : State), ∃ t, exec (.addReg x y) s = .next t ∧
    (∀ k : Reg, t.v[k] = flaggedReg s x (BitVec.ofNat 8 (((s.v[x]).toNat + (s.v[y]).toNat) % 256))
      (decide ((s.v[x]).toNat + (s.v[y]).toNat > 0xFF)) k) ∧
    t.pc = s.pc + 2#16 ∧ FrameBut [.v, .pc] s t

/-- R175, R177, R178 (decisions D4, D29): the differences modulo 256 and the not-borrow flag. `SUBN` (R177) and the
polarity of the flag (R178) are marked general knowledge in the spec, and the model follows them (log entry 6). -/
def Obligations.SubtractionsSetNotBorrow : Prop :=
  ∀ (x y : Reg) (s : State),
    (∃ t, exec (.subReg x y) s = .next t ∧
      (∀ k : Reg, t.v[k] = flaggedReg s x (BitVec.ofNat 8 (((s.v[x]).toNat + 0x100 - (s.v[y]).toNat) % 256))
        (decide ((s.v[x]).toNat ≥ (s.v[y]).toNat)) k) ∧ t.pc = s.pc + 2#16 ∧ FrameBut [.v, .pc] s t) ∧
    (∃ t, exec (.subn x y) s = .next t ∧
      (∀ k : Reg, t.v[k] = flaggedReg s x (BitVec.ofNat 8 (((s.v[y]).toNat + 0x100 - (s.v[x]).toNat) % 256))
        (decide ((s.v[y]).toNat ≥ (s.v[x]).toNat)) k) ∧ t.pc = s.pc + 2#16 ∧ FrameBut [.v, .pc] s t)

/-- R176, R179 (decision D5): shifts by one of the source `P_SHIFT_SRC` selects, the bit shifted out to `VF`. -/
def Obligations.ShiftsSetBitShiftedOut : Prop :=
  ∀ (x y : Reg) (s : State), ∀ src : Byte, src = (if s.params.shiftSrc = .vx then s.v[x] else s.v[y]) →
    (∃ t, exec (.shr x y) s = .next t ∧
      (∀ k : Reg, t.v[k] = flaggedReg s x (BitVec.ofNat 8 (src.toNat / 2)) (decide (src.toNat % 2 = 1)) k) ∧
      t.pc = s.pc + 2#16 ∧ FrameBut [.v, .pc] s t) ∧
    (∃ t, exec (.shl x y) s = .next t ∧
      (∀ k : Reg, t.v[k] = flaggedReg s x (BitVec.ofNat 8 (src.toNat * 2 % 256)) (decide (src.toNat / 128 = 1)) k) ∧
      t.pc = s.pc + 2#16 ∧ FrameBut [.v, .pc] s t)

/-- R9, R180 (decision D15): whatever byte is drawn, `RND` writes a submask of `NN` (0 for `NN = 0`, the whole draw for
`NN = 0xFF`), sets no flag, and moves on to the next draw (the draw counter is the model's own, log entry 2). -/
def Obligations.RandomByteIsMasked : Prop :=
  ∀ (x : Reg) (nn : Byte) (s : State), ∃ t, exec (.rnd x nn) s = .next t ∧
    (∀ b < 8, (t.v[x]).getLsbD b = ((Config.draw s.draws).getLsbD b && nn.getLsbD b)) ∧
    SameRegsBut x s t ∧ t.draws = s.draws + 1 ∧ t.pc = s.pc + 2#16 ∧ FrameBut [.v, .pc, .draws] s t

/-- R160: for the flag-setting instructions with `x` other than F, both values of `P_VF_ORDER` give the same state but
for the parameter itself; with `x = F` the flag remains under `flag_last` and the result under `result_last`. -/
def Obligations.FlagOrderMattersOnlyAtVF : Prop :=
  ∀ (i : Instr) (x y : Reg) (s : State),
    (i = .addReg x y ∨ i = .subReg x y ∨ i = .subn x y ∨ i = .shr x y ∨ i = .shl x y) →
    ∃ t u, exec i { s with params := { s.params with vfOrder := .flagLast } } = .next t ∧
      exec i { s with params := { s.params with vfOrder := .resultLast } } = .next u ∧
      (x ≠ 15 → u = { t with params := u.params }) ∧
      ((t.v[(15 : Reg)]).toNat = 0 ∨ (t.v[(15 : Reg)]).toNat = 1) ∧
      (x = 15 → i = .addReg x y → (u.v[(15 : Reg)]).toNat = ((s.v[x]).toNat + (s.v[y]).toNat) % 256)

/-! ## Display instructions (42_display.md) -/

/-- R201 (that `VF` is left is marked general knowledge there): `CLS` turns every pixel off and changes nothing
else. -/
def Obligations.ClearTurnsEveryPixelOff : Prop :=
  ∀ s : State, ∃ t, exec .cls s = .next t ∧ (∀ (px : Fin 64) (py : Fin 32), t.disp[px][py] = false) ∧
    t.pc = s.pc + 2#16 ∧ FrameBut [.disp, .pc] s t

/-- R202 to R206, R208 (decisions D14, D36): when the sprite's bytes lie in memory (always for `n = 0`), `DRAW` XORs
the sprite, every pixel wrapping, onto the display; `VF` becomes 1 exactly when a covered pixel was on, else 0; nothing
else changes. -/
def Obligations.DrawXorsTheSprite : Prop :=
  ∀ (x y : Reg) (n : Fin 16) (s : State), spriteInMemory s n → ∃ t, exec (.draw x y n) s = .next t ∧
    (∀ (px : Fin 64) (py : Fin 32), t.disp[px][py] =
      (s.disp[px][py] != spriteCovers s.mem s.i.toNat (s.v[x]).toNat (s.v[y]).toNat n.val px py)) ∧
    ((t.v[(15 : Reg)]) = 1#8 ∨ (t.v[(15 : Reg)]) = 0#8) ∧
    ((t.v[(15 : Reg)]) = 1#8 ↔ ∃ (px : Fin 64) (py : Fin 32),
      spriteCovers s.mem s.i.toNat (s.v[x]).toNat (s.v[y]).toNat n.val px py = true ∧ s.disp[px][py] = true) ∧
    SameRegsBut 15 s t ∧ t.pc = s.pc + 2#16 ∧ FrameBut [.v, .disp, .pc] s t

/-- R207, R316: a sprite that passes 0xFFF is a bounds error with the first out-of-range address; nothing is drawn. -/
def Obligations.DrawBeyondMemoryIsFatal : Prop :=
  ∀ (x y : Reg) (n : Fin 16) (s : State), n.val ≠ 0 → s.i.toNat + n.val > 0x1000 →
    exec (.draw x y n) s =
      .next (fatalState s .bounds (some (encode (.draw x y n))) (some (max s.i.toNat 0x1000)))

/-- R209 (derived there): drawing the same sprite a second time at the same place from the same memory restores the
display, and the second collision flag is 1 exactly when a covered pixel was off before the first draw. -/
def Obligations.DrawingTwiceRestoresTheDisplay : Prop :=
  ∀ (x y : Reg) (n : Fin 16) (s t s' : State), spriteInMemory s n → exec (.draw x y n) s = .next t →
    s'.disp = t.disp → s'.i = s.i → s'.v[x] = s.v[x] → s'.v[y] = s.v[y] → (∀ a, s'.mem.read a = s.mem.read a) →
    ∃ u, exec (.draw x y n) s' = .next u ∧
      (∀ (px : Fin 64) (py : Fin 32), u.disp[px][py] = s.disp[px][py]) ∧
      ((u.v[(15 : Reg)]) = 1#8 ↔ ∃ (px : Fin 64) (py : Fin 32),
        spriteCovers s.mem s.i.toNat (s.v[x]).toNat (s.v[y]).toNat n.val px py = true ∧ s.disp[px][py] = false)

/-! ## Control flow (43_control_flow.md) -/

/-- R221: `1kkk`, mask 0xF000, match 0x1000; `PC <- NNN`; no flag, and no exception at the jump, whatever the
target. -/
def Obligations.JumpSetsPc : Prop :=
  ∀ (nnn : Addr12) (s : State),
    encode (.jp nnn) &&& 0xF000#16 = 0x1000#16 ∧ decode (encode (.jp nnn)) = .ok (.jp nnn) ∧
    ∃ t, exec (.jp nnn) s = .next t ∧ t.pc.toNat = nnn.toNat ∧ FrameBut [.pc] s t

/-- R224 (decision D8): the base plus the offset register, exact, up to 0x10FE; no exception at the jump. -/
def Obligations.JumpWithOffsetSetsPc : Prop :=
  ∀ (nnn : Addr12) (s : State), ∃ (t : State) (o : Reg), exec (.jpV0 nnn) s = .next t ∧
    o.val = (if s.params.jumpOffset = .v0 then 0 else nnn.toNat / 256) ∧
    t.pc.toNat = nnn.toNat + (s.v[o]).toNat ∧ FrameBut [.pc] s t

/-- R222, R223: with fewer than 16 return addresses held, `CALL` pushes `addr + 2` on top, keeps the entries below and
goes to `NNN`; with 16 it is the fatal stack overflow (its record as R311 says) and the stack is as it was. -/
def Obligations.CallPushesReturnAddress : Prop :=
  ∀ (nnn : Addr12) (s : State),
    (∀ h : s.sp.val < 16, ∃ t, exec (.call nnn) s = .next t ∧ t.sp.val = s.sp.val + 1 ∧
      t.stack[s.sp.val] = s.pc + 2#16 ∧ (∀ j : Fin 16, j.val ≠ s.sp.val → t.stack[j] = s.stack[j]) ∧
      t.pc.toNat = nnn.toNat ∧ FrameBut [.stack, .pc] s t) ∧
    (s.sp.val = 16 → exec (.call nnn) s = .next (fatalState s .stackOverflow (some (encode (.call nnn))) none))

/-- R220: with an entry in use, `RET` takes `PC` from the top entry, unchecked, and leaves the entries as they were;
with none it is the fatal stack underflow (its record as R311 says). -/
def Obligations.ReturnPopsReturnAddress : Prop :=
  ∀ s : State,
    (∀ h : 0 < s.sp.val, ∃ t, exec .ret s = .next t ∧ t.sp.val = s.sp.val - 1 ∧ t.stack = s.stack ∧
      t.pc = s.stack[s.sp.val - 1] ∧ FrameBut [.stack, .pc] s t) ∧
    (s.sp.val = 0 → exec .ret s = .next (fatalState s .stackUnderflow (some 0x00EE#16) none))

/-- R231 (derived there): a `CALL` at `addr` and a later `RET` at the same depth with the entries below the top as the
`CALL` left them restore `PC = addr + 2` and the stack depth, whatever ran between. -/
def Obligations.CallThenReturnRoundTrip : Prop :=
  ∀ (nnn : Addr12) (s t u : State), s.sp.val < 16 → exec (.call nnn) s = .next t →
    u.sp = t.sp → (∀ j : Fin 16, j.val < t.sp.val → u.stack[j] = t.stack[j]) →
    ∃ w, exec .ret u = .next w ∧ w.pc = s.pc + 2#16 ∧ w.sp = s.sp ∧
      ∀ j : Fin 16, j.val < s.sp.val → w.stack[j] = s.stack[j]

/-- R225, R226, R227, R228, R229: the register skips: `addr + 4` when the condition holds, `addr + 2` when it does
not; nothing else changes. -/
def Obligations.SkipsCompareRegisters : Prop :=
  ∀ (x y : Reg) (nn : Byte) (s : State),
    (∃ t, exec (.seImm x nn) s = .next t ∧ t.pc = (if s.v[x] = nn then s.pc + 4#16 else s.pc + 2#16) ∧
      FrameBut [.pc] s t) ∧
    (∃ t, exec (.sneImm x nn) s = .next t ∧ t.pc = (if s.v[x] = nn then s.pc + 2#16 else s.pc + 4#16) ∧
      FrameBut [.pc] s t) ∧
    (∃ t, exec (.seReg x y) s = .next t ∧ t.pc = (if s.v[x] = s.v[y] then s.pc + 4#16 else s.pc + 2#16) ∧
      FrameBut [.pc] s t) ∧
    (∃ t, exec (.sneReg x y) s = .next t ∧ t.pc = (if s.v[x] = s.v[y] then s.pc + 2#16 else s.pc + 4#16) ∧
      FrameBut [.pc] s t)

/-- R239 (decision D3), R108: `SYS NNN` is never executed: its effect is the fatal decode error with the fetched word,
0x0000 among them, and nothing but the record changes. -/
def Obligations.NativeCallIsDecodeError : Prop :=
  ∀ (nnn : Addr12) (s : State), ∃ t r, exec (.sys nnn) s = .next t ∧ t.halt = some r ∧ r.kind = .decode ∧
    r.kind.code = 1 ∧ r.opcode.map BitVec.toNat = some nnn.toNat ∧ r.addr = s.pc ∧ r.info = none ∧
    t.status = .fatal r ∧ FrameBut [.halt] s t ∧ t.mem = s.mem

/-! ## Keys and timers (44_keys_timers.md) -/

/-- R250, R251, R252 (decision D13): the key skips look at the latch flag the low nibble of `Vx` names. -/
def Obligations.KeySkipsTestTheNamedKey : Prop :=
  ∀ (x : Reg) (k : Key) (s : State), k.val = (s.v[x]).toNat % 16 →
    (∃ t, exec (.skp x) s = .next t ∧ t.pc = (if s.key[k] then s.pc + 4#16 else s.pc + 2#16) ∧ FrameBut [.pc] s t) ∧
    (∃ t, exec (.sknp x) s = .next t ∧ t.pc = (if s.key[k] then s.pc + 2#16 else s.pc + 4#16) ∧ FrameBut [.pc] s t)

/-- R253, R255, R256 (decision D9): under `level` the lowest held key is loaded at once and `PC` moves on; with no key
held, and always under `edge`, the engine waits at this address, under `edge` with the latch as first sample. -/
def Obligations.KeyWaitLoadsOrBlocks : Prop :=
  ∀ (x : Reg) (s : State),
    (s.params.keyWait = .level → ∀ k : Key, s.key[k] = true → (∀ j : Key, j < k → s.key[j] = false) →
      ∃ t, exec (.ldVxK x) s = .next t ∧ (t.v[x]).toNat = k.val ∧ SameRegsBut x s t ∧ t.pc = s.pc + 2#16 ∧
        FrameBut [.v, .pc] s t) ∧
    (s.params.keyWait = .level → (∀ k : Key, s.key[k] = false) →
      ∃ t, exec (.ldVxK x) s = .next t ∧ t.await = some x ∧ FrameBut [.await] s t) ∧
    (s.params.keyWait = .edge →
      ∃ t, exec (.ldVxK x) s = .next t ∧ t.await = some x ∧ t.waitPrev = s.key ∧ FrameBut [.await, .waitPrev] s t)

/-- R258, R259, R260, R334: `LD Vx, DT` reads the delay timer, `LD DT, Vx` and `LD ST, Vx` write the timers, and the
tone is on exactly while `ST` is nonzero. -/
def Obligations.TimerInstructionsMoveBytes : Prop :=
  ∀ (x : Reg) (s : State),
    (∃ t, exec (.ldVxDt x) s = .next t ∧ t.v[x] = s.dt ∧ SameRegsBut x s t ∧ t.pc = s.pc + 2#16 ∧
      FrameBut [.v, .pc] s t) ∧
    (∃ t, exec (.ldDtVx x) s = .next t ∧ t.dt = s.v[x] ∧ t.pc = s.pc + 2#16 ∧ FrameBut [.dt, .pc] s t) ∧
    (∃ t, exec (.ldStVx x) s = .next t ∧ t.st = s.v[x] ∧ t.tone = decide ((s.v[x]).toNat ≠ 0) ∧
      t.pc = s.pc + 2#16 ∧ FrameBut [.st, .pc] s t)

/-! ## Index register and memory (45_index_memory.md) -/

/-- R280, R281, R282 (decisions D12, D16): `I` from a zero-extended immediate, from an addition modulo 65536 with no
flag and no check, and from the low nibble times 5. -/
def Obligations.IndexInstructionsSetI : Prop :=
  ∀ (x : Reg) (nnn : Addr12) (s : State),
    (∃ t, exec (.ldI nnn) s = .next t ∧ t.i.toNat = nnn.toNat ∧ t.pc = s.pc + 2#16 ∧ FrameBut [.i, .pc] s t) ∧
    (∃ t, exec (.addI x) s = .next t ∧ t.i.toNat = (s.i.toNat + (s.v[x]).toNat) % 65536 ∧ t.pc = s.pc + 2#16 ∧
      FrameBut [.i, .pc] s t) ∧
    (∃ t, exec (.ldF x) s = .next t ∧ t.i.toNat = (s.v[x]).toNat % 16 * 5 ∧ t.pc = s.pc + 2#16 ∧
      FrameBut [.i, .pc] s t)

/-- R283, R284: where the three bytes at `I` may be written, `LD B, Vx` stores hundreds, tens and ones there, and no
other byte changes (memory in canonical form, the invariant of StepKeepsMemoryCanonical). -/
def Obligations.DecimalStoreWritesThreeDigits : Prop :=
  ∀ (x : Reg) (s : State), s.MemOk → storeAllowed s 3 → ∃ t, exec (.ldB x) s = .next t ∧
    (t.mem.read s.i.toNat).toNat = (s.v[x]).toNat / 100 ∧
    (t.mem.read (s.i.toNat + 1)).toNat = (s.v[x]).toNat / 10 % 10 ∧
    (t.mem.read (s.i.toNat + 2)).toNat = (s.v[x]).toNat % 10 ∧
    SameMemoryOutside s.i.toNat 3 s t ∧ t.pc = s.pc + 2#16 ∧ FrameBut [.mem, .pc] s t

/-- R285, R287 (decision D7): where the bytes may be written, `LD [I], Vx` stores `V0` to `Vx` from `I` on, no other
byte changes, and `I` stays or moves past them by `P_LDST_I`. -/
def Obligations.BlockStoreWritesRegisters : Prop :=
  ∀ (x : Reg) (s : State), s.MemOk → storeAllowed s (x.val + 1) → ∃ t, exec (.ldMemVx x) s = .next t ∧
    (∀ k : Reg, k ≤ x → t.mem.read (s.i.toNat + k.val) = s.v[k]) ∧
    SameMemoryOutside s.i.toNat (x.val + 1) s t ∧
    t.i.toNat = (if s.params.ldstI = .increment then (s.i.toNat + x.val + 1) % 65536 else s.i.toNat) ∧
    t.pc = s.pc + 2#16 ∧ FrameBut [.mem, .i, .pc] s t

/-- R286, R287, R76 (decisions D7, D10): where the bytes lie in memory, reserved area included, `LD Vx, [I]` loads
`V0` to `Vx` from `I` on; the other registers and all of memory stay. -/
def Obligations.BlockLoadReadsRegisters : Prop :=
  ∀ (x : Reg) (s : State), s.i.toNat + x.val + 1 ≤ 0x1000 → ∃ t, exec (.ldVxMem x) s = .next t ∧
    (∀ k : Reg, t.v[k] = if k ≤ x then s.mem.read (s.i.toNat + k.val) else s.v[k]) ∧
    t.i.toNat = (if s.params.ldstI = .increment then (s.i.toNat + x.val + 1) % 65536 else s.i.toNat) ∧
    t.pc = s.pc + 2#16 ∧ FrameBut [.v, .i, .pc] s t

/-- R79, R81, R284, R319 (decisions D10, D20): an access that passes 0xFFF is a bounds error with the first
out-of-range address; a store that begins in the reserved area and stays in memory is a reserved-write error under
`P_RESERVED_WRITE = fault`. Nothing is written. -/
def Obligations.BadMemoryAccessIsFatal : Prop :=
  ∀ (x : Reg) (s : State),
    (s.i.toNat + 3 > 0x1000 →
      exec (.ldB x) s = .next (fatalState s .bounds (some (encode (.ldB x))) (some (max s.i.toNat 0x1000)))) ∧
    (s.i.toNat < 0x200 → s.params.reservedWrite = .fault →
      exec (.ldB x) s = .next (fatalState s .reservedWrite (some (encode (.ldB x))) (some s.i.toNat))) ∧
    (s.i.toNat + x.val + 1 > 0x1000 →
      exec (.ldMemVx x) s = .next (fatalState s .bounds (some (encode (.ldMemVx x))) (some (max s.i.toNat 0x1000))) ∧
      exec (.ldVxMem x) s = .next (fatalState s .bounds (some (encode (.ldVxMem x))) (some (max s.i.toNat 0x1000)))) ∧
    (s.i.toNat < 0x200 → s.params.reservedWrite = .fault →
      exec (.ldMemVx x) s = .next (fatalState s .reservedWrite (some (encode (.ldMemVx x))) (some s.i.toNat)))

/-- R90, R361 (derived there): a word a program stores at `I` with `LD [I], Vx` is what a fetch at that address reads
in the state right after, with nothing in between. -/
def Obligations.StoredWordIsFetchedNext : Prop :=
  ∀ (x : Reg) (s t : State), s.MemOk → storeAllowed s (x.val + 1) → 1 ≤ x.val → exec (.ldMemVx x) s = .next t →
    opcodeAt { t with pc := s.i } = s.v[(0 : Reg)] ++ s.v[(1 : Reg)]

/-! ## The host's transactions (60_exceptions.md, 70_reset_and_hazards.md) -/

/-- R325: `TICK` takes 1 from each timer, floored at 0, waiting or not, and changes nothing else; while halted it
changes nothing. -/
def Obligations.TickDecrementsTimers : Prop :=
  ∀ s : State,
    (s.halt = none → s.tick.dt.toNat = s.dt.toNat - 1 ∧ s.tick.st.toNat = s.st.toNat - 1 ∧ FrameBut [.dt, .st] s s.tick) ∧
    (s.halt ≠ none → s.tick = s)

/-- R332 (decision D27): `KEY(k, pressed)` sets one flag of the latch, in every state, and changes nothing else. -/
def Obligations.KeyWritesOneLatchFlag : Prop :=
  ∀ (k : Key) (b : Bool) (s : State),
    (∀ j : Key, (s.setKey k b).key[j] = if j = k then b else s.key[j]) ∧ FrameBut [.key] s (s.setKey k b)

/-- R350, R351, R352, R354, R357 (decisions D22, D34): `RESET` with a ROM of at most 3584 bytes gives, from every
state, the same machine: the font, the ROM and zeros in memory, every other element at its reset value. The parameters
stay, and the model's own draw counter goes on (log entry 2). -/
def Obligations.ResetBuildsAFreshMachine : Prop :=
  ∀ (s : State) (rom : List Byte), rom.length ≤ 3584 → ∃ t, s.load rom = .next t ∧ t.MemOk ∧
    (∀ a, (h : a < 80) → t.mem.read a = s.params.font[a]) ∧
    (∀ a, 80 ≤ a → a < 0x200 → t.mem.read a = 0#8) ∧
    (∀ k, (h : k < rom.length) → t.mem.read (0x200 + k) = rom[k]) ∧
    (∀ a, 0x200 + rom.length ≤ a → t.mem.read a = 0#8) ∧
    t.params = s.params ∧ t.draws = s.draws ∧ FrameBut [.mem, .params, .draws] State.reset t

/-- R353: a ROM of more than 3584 bytes is the load error with its length, and no machine; any other ROM starts one,
3584 bytes filling 0x200 to 0xFFF; the empty ROM is accepted, and its first fetch reads 0x0000, a decode error. -/
def Obligations.RomSizeIsChecked : Prop :=
  ∀ (s : State) (rom : List Byte),
    (rom.length > 3584 → s.load rom = .fault (.load rom.length) ∧ (Fault.load rom.length).kind = .load) ∧
    (rom.length ≤ 3584 → ∃ t, s.load rom = .next t ∧
      (rom.length = 3584 → ∀ k, (h : k < rom.length) → t.mem.read (0x200 + k) = rom[k])) ∧
    ∃ t u, s.load [] = .next t ∧ step t = .next u ∧ u.status = .fatal ⟨.decode, some 0x0000#16, 0x200#16, none⟩

/-- R47, R72, R75, R355, R356 (decisions D22, D23): what `State.reset` holds. -/
def Obligations.ResetStateHoldsTheSpecValues : Prop :=
  (∀ k : Reg, State.reset.v[k] = 0#8) ∧ State.reset.i = 0#16 ∧ State.reset.pc = 0x200#16 ∧ State.reset.sp = 0 ∧
  State.reset.dt = 0#8 ∧ State.reset.st = 0#8 ∧ (∀ (px : Fin 64) (py : Fin 32), State.reset.disp[px][py] = false) ∧
  (∀ k : Key, State.reset.key[k] = false ∧ State.reset.waitPrev[k] = false) ∧ State.reset.await = none ∧
  State.reset.halt = none ∧ State.reset.mem.readRun 0 5 = [0xF0#8, 0x90#8, 0x90#8, 0x90#8, 0xF0#8] ∧
  State.reset.mem.readRun 0x4B 5 = [0xF0#8, 0x80#8, 0xF0#8, 0x80#8, 0x80#8] ∧
  ∀ a, 80 ≤ a → State.reset.mem.read a = 0#8

/-! ## Invariants -/

/-- The model's own canonical form of memory (log entry 4): every step keeps it. -/
def Obligations.StepKeepsMemoryCanonical : Prop :=
  ∀ s t : State, s.MemOk → step s = .next t → t.MemOk

/-- R42, R254: in every state a step leaves, a waiting engine is not halted and `PC` holds the address of the
`LD Vx, K` it waits in; every step keeps that, from every state in which it holds. -/
def Obligations.StepKeepsWaitAtItsInstruction : Prop :=
  ∀ s t : State, s.WaitOk → step s = .next t → t.WaitOk

/-- R141, R311, R318, R319: every step keeps the fatal record precise: it names the instruction at `PC`, is no load
error, and a halted engine does not wait. -/
def Obligations.StepKeepsFatalRecordPrecise : Prop :=
  ∀ s t : State, s.HaltOk → step s = .next t → t.HaltOk

/-- R35 (derived there): `PC` never exceeds 0x10FE and no return address in use exceeds 0x1000; every step keeps that
(with R254's invariant, which says where a waiting engine's `PC` is). -/
def Obligations.StepKeepsPcInRange : Prop :=
  ∀ s t : State, s.WaitOk → s.PcOk → step s = .next t → t.PcOk

/-- R72, R81 (decision D10): under `P_RESERVED_WRITE = fault` no step changes the reserved area, so it holds the font
and zeros as reset left them. -/
def Obligations.StepKeepsReservedArea : Prop :=
  ∀ s t : State, s.MemOk → s.ReservedOk → step s = .next t → t.ReservedOk

/-- All the invariants hold right after reset. -/
def Obligations.ResetMeetsTheInvariants : Prop := State.reset.Inv

/-- R12, R335: under any interleaving of `RESET`, `STEP`, `TICK` and `KEY` a host chooses, from every state that meets
the invariants, the state reached meets them. -/
def Obligations.EveryScheduleKeepsTheInvariants : Prop :=
  ∀ (schedule : List Transaction) (s t : State), s.Inv → runSchedule schedule s = .next t → t.Inv

/-- R37, R39, R43: what no instruction reads does not show: two states that differ only in `ST`, in stack entries not
in use, and under `P_KEY_WAIT = level` in `wait_prev`, step to states that differ only in these, with the same status. -/
def Obligations.UnreadStateDoesNotShow : Prop :=
  ∀ s s' t : State, SameButUnread s s' → step s = .next t →
    ∃ t', step s' = .next t' ∧ SameButUnread t t' ∧ t'.status = t.status
end

