-- ==== Sys2Proof/Laws/Decode.lean ====
section
/-! SUPPORT. The fields of encoded words: one lemma per field per word shape, and the joining and splitting of the two
bytes of an opcode (30_encoding.md R100, R101; 20_memory.md R82). -/

namespace Sys2Proof

/-! ## The value of each field and of each word -/

theorem toNat_fieldN3 (w : Word) : (fieldN3 w).toNat = w.toNat / 4096 := by
  have := w.isLt
  simp only [fieldN3, BitVec.extractLsb'_toNat, Nat.shiftRight_eq_div_pow]; omega

theorem val_fieldX (w : Word) : (fieldX w).val = w.toNat / 256 % 16 := by
  change (w.extractLsb' 8 4).toNat = _
  simp only [BitVec.extractLsb'_toNat, Nat.shiftRight_eq_div_pow]

theorem val_fieldY (w : Word) : (fieldY w).val = w.toNat / 16 % 16 := by
  change (w.extractLsb' 4 4).toNat = _
  simp only [BitVec.extractLsb'_toNat, Nat.shiftRight_eq_div_pow]

theorem toNat_fieldN (w : Word) : (fieldN w).toNat = w.toNat % 16 := by
  simp [fieldN, BitVec.extractLsb'_toNat]

theorem toNat_fieldNN (w : Word) : (fieldNN w).toNat = w.toNat % 256 := by
  simp [fieldNN, BitVec.extractLsb'_toNat]

theorem toNat_fieldNNN (w : Word) : (fieldNNN w).toNat = w.toNat % 4096 := by
  simp [fieldNNN, BitVec.extractLsb'_toNat]

theorem toNat_highByte (w : Word) : (highByte w).toNat = w.toNat / 256 := by
  have := w.isLt
  simp only [highByte, BitVec.extractLsb'_toNat, Nat.shiftRight_eq_div_pow]; omega

theorem toNat_lowByte (w : Word) : (lowByte w).toNat = w.toNat % 256 := by
  simp [lowByte, BitVec.extractLsb'_toNat]

/-- Appending is multiplying by the width of the lower part and adding it. -/
theorem toNat_append_eq {a b : Nat} (u : BitVec a) (t : BitVec b) : (u ++ t).toNat = u.toNat * 2 ^ b + t.toNat := by
  rw [BitVec.toNat_append, Nat.shiftLeft_eq, Nat.mul_comm, ← Nat.two_pow_add_eq_or_of_lt t.isLt]

theorem toNat_joinBytes (hi lo : Byte) : (joinBytes hi lo).toNat = 256 * hi.toNat + lo.toNat := by
  have : (joinBytes hi lo).toNat = hi.toNat * 2 ^ 8 + lo.toNat := toNat_append_eq hi lo
  omega

theorem toNat_encodeXNN (op : BitVec 4) (x : Reg) (nn : Byte) :
    (encodeXNN op x nn).toNat = 4096 * op.toNat + 256 * x.val + nn.toNat := by
  have h1 : (encodeXNN op x nn).toNat = (op ++ regBits x).toNat * 2 ^ 8 + nn.toNat := toNat_append_eq _ nn
  have h2 := toNat_append_eq op (regBits x)
  have h3 : (regBits x).toNat = x.val := rfl
  omega

theorem toNat_encodeXYN (op : BitVec 4) (x y : Reg) (n : BitVec 4) :
    (encodeXYN op x y n).toNat = 4096 * op.toNat + 256 * x.val + 16 * y.val + n.toNat := by
  have h1 : (encodeXYN op x y n).toNat = (op ++ regBits x ++ regBits y).toNat * 2 ^ 4 + n.toNat := toNat_append_eq _ n
  have h2 := toNat_append_eq (op ++ regBits x) (regBits y)
  have h3 := toNat_append_eq op (regBits x)
  have h4 : (regBits x).toNat = x.val := rfl
  have h5 : (regBits y).toNat = y.val := rfl
  omega

theorem toNat_encodeNNN (op : BitVec 4) (nnn : Addr12) :
    (encodeNNN op nnn).toNat = 4096 * op.toNat + nnn.toNat := by
  have : (encodeNNN op nnn).toNat = op.toNat * 2 ^ 12 + nnn.toNat := toNat_append_eq op nnn
  omega

/-! ## Bytes of a word -/

@[simp] theorem joinBytes_high_low (w : Word) : joinBytes (highByte w) (lowByte w) = w := by
  apply BitVec.eq_of_toNat_eq
  rw [toNat_joinBytes, toNat_highByte, toNat_lowByte]; omega

@[simp] theorem highByte_joinBytes (hi lo : Byte) : highByte (joinBytes hi lo) = hi := by
  apply BitVec.eq_of_toNat_eq
  rw [toNat_highByte, toNat_joinBytes]; omega

@[simp] theorem lowByte_joinBytes (hi lo : Byte) : lowByte (joinBytes hi lo) = lo := by
  apply BitVec.eq_of_toNat_eq
  rw [toNat_lowByte, toNat_joinBytes]; omega

@[simp] theorem tableWord_toNat (w : Word) : tableWord 16 w.toNat = w := by
  simp [tableWord, Nat.mod_eq_of_lt w.isLt]

/-! ## Words with `x` and `NN` -/

section XNN
variable (op : BitVec 4) (x : Reg) (nn : Byte)

@[simp] theorem fieldN3_encodeXNN : fieldN3 (encodeXNN op x nn) = op := by
  apply BitVec.eq_of_toNat_eq
  rw [toNat_fieldN3, toNat_encodeXNN]; omega

@[simp] theorem fieldX_encodeXNN : fieldX (encodeXNN op x nn) = x := by
  apply Fin.ext
  rw [val_fieldX, toNat_encodeXNN]; omega

@[simp] theorem fieldNN_encodeXNN : fieldNN (encodeXNN op x nn) = nn := by
  apply BitVec.eq_of_toNat_eq
  rw [toNat_fieldNN, toNat_encodeXNN]; omega

end XNN

/-! ## Words with `x`, `y` and a low nibble -/

section XYN
variable (op : BitVec 4) (x y : Reg) (n : BitVec 4)

@[simp] theorem fieldN3_encodeXYN : fieldN3 (encodeXYN op x y n) = op := by
  apply BitVec.eq_of_toNat_eq
  rw [toNat_fieldN3, toNat_encodeXYN]; omega

@[simp] theorem fieldX_encodeXYN : fieldX (encodeXYN op x y n) = x := by
  apply Fin.ext
  rw [val_fieldX, toNat_encodeXYN]; omega

@[simp] theorem fieldY_encodeXYN : fieldY (encodeXYN op x y n) = y := by
  apply Fin.ext
  rw [val_fieldY, toNat_encodeXYN]; omega

@[simp] theorem fieldN_encodeXYN : fieldN (encodeXYN op x y n) = n := by
  apply BitVec.eq_of_toNat_eq
  rw [toNat_fieldN, toNat_encodeXYN]; omega

end XYN

/-! ## Words with `NNN` -/

section NNN
variable (op : BitVec 4) (nnn : Addr12)

@[simp] theorem fieldN3_encodeNNN : fieldN3 (encodeNNN op nnn) = op := by
  apply BitVec.eq_of_toNat_eq
  rw [toNat_fieldN3, toNat_encodeNNN]; omega

@[simp] theorem fieldNNN_encodeNNN : fieldNNN (encodeNNN op nnn) = nnn := by
  apply BitVec.eq_of_toNat_eq
  rw [toNat_fieldNNN, toNat_encodeNNN]; omega

theorem encodeNNN_inj {op op' : BitVec 4} {nnn nnn' : Addr12} (h : encodeNNN op nnn = encodeNNN op' nnn') :
    op = op' ∧ nnn = nnn' :=
  ⟨by rw [← fieldN3_encodeNNN op nnn, h, fieldN3_encodeNNN], by rw [← fieldNNN_encodeNNN op nnn, h, fieldNNN_encodeNNN]⟩

end NNN

/-! ## Putting the fields of a word together gives it back -/

theorem encodeXNN_fields (w : Word) : encodeXNN (fieldN3 w) (fieldX w) (fieldNN w) = w := by
  apply BitVec.eq_of_toNat_eq
  rw [toNat_encodeXNN, toNat_fieldN3, val_fieldX, toNat_fieldNN]; omega

theorem encodeXYN_fields (w : Word) : encodeXYN (fieldN3 w) (fieldX w) (fieldY w) (fieldN w) = w := by
  apply BitVec.eq_of_toNat_eq
  rw [toNat_encodeXYN, toNat_fieldN3, val_fieldX, val_fieldY, toNat_fieldN]; omega

theorem encodeNNN_fields (w : Word) : encodeNNN (fieldN3 w) (fieldNNN w) = w := by
  apply BitVec.eq_of_toNat_eq
  rw [toNat_encodeNNN, toNat_fieldN3, toNat_fieldNNN]; omega

end Sys2Proof
end

