-- ==== Sys2Proof/Laws/Memory.lean ====
section
/-! SUPPORT. The laws of memory: reading what was written, leaving every other byte alone, and the canonical form,
which every memory operation keeps. -/

namespace Sys2Proof.Machine

variable {m : Memory} {a b base : Nat} {u : Byte}

/-! ## Read after write -/

theorem Memory.read_insert (m : Memory) (a b : Nat) (u : Byte) (h : m.wf = true) :
    (m.insert a u).read b = if b = a then u else m.read b := by
  induction m with
  | nil =>
    unfold Memory.insert
    split <;> rename_i hu <;> simp only [Memory.read] <;> split <;> simp_all
  | cons c rest ih =>
    obtain ⟨c, t⟩ := c
    simp only [Memory.wf, Bool.and_eq_true, List.all_eq_true, decide_eq_true_eq] at h
    have hrest := ih h.2
    -- a listed address of the rest lies above the head's
    have miss : ∀ (l : Memory) (k : Nat), (∀ e ∈ l, k < e.1) → l.read k = unlistedByte k := by
      intro l k
      induction l with
      | nil => intro _; rfl
      | cons e l ihl =>
        intro hl
        obtain ⟨e, w⟩ := e
        have h1 := hl (e, w) (by simp)
        simp only [Memory.read]
        rw [if_neg (by simp at h1; omega)]
        exact ihl (fun e' he' => hl e' (by simp [he']))
    unfold Memory.insert
    split
    · rename_i hac
      have ha : Memory.read ((c, t) :: rest) a = unlistedByte a :=
        miss _ a (by
          intro e he
          rcases List.mem_cons.mp he with he | he
          · rw [he]; exact hac
          · exact Nat.lt_trans hac (h.1.2 e he))
      split
      · split
        · rename_i hu hb; rw [hb, ha, hu]
        · rfl
      · simp only [Memory.read]
    · split
      · rename_i hne hac
        subst hac
        split
        · simp only [Memory.read]
          split
          · rename_i hb; subst hb; rw [miss rest b h.1.2]; simp_all
          · rfl
        · simp only [Memory.read]; split <;> rfl
      · rename_i hne hac
        simp only [Memory.read, hrest]
        split
        · rename_i hb; rw [if_neg (by omega)]
        · rfl

theorem Memory.read_write (m : Memory) (a b : Nat) (u : Byte) (h : m.wf = true) (ha : a < Config.memSize) :
    (m.write a u).read b = if b = a then u else m.read b := by
  rw [Memory.write, if_pos ha, Memory.read_insert m a b u h]

/-! ## The canonical form is kept -/

theorem Memory.mem_insert {e : Host.Cell} (he : e ∈ m.insert a u) : e = (a, u) ∨ e ∈ m := by
  induction m with
  | nil => unfold Memory.insert at he; split at he <;> simp_all
  | cons c rest ih =>
    obtain ⟨c, t⟩ := c
    unfold Memory.insert at he
    split at he
    · split at he <;> simp_all
    · split at he
      · split at he
        · exact .inr (List.mem_cons_of_mem _ he)
        · rcases List.mem_cons.mp he with he | he
          · exact .inl he
          · exact .inr (List.mem_cons_of_mem _ he)
      · rcases List.mem_cons.mp he with he | he
        · exact .inr (by simp [he])
        · rcases ih he with h | h
          · exact .inl h
          · exact .inr (List.mem_cons_of_mem _ h)

theorem Memory.wf_insert (h : m.wf = true) (ha : a < Config.memSize) : (m.insert a u).wf = true := by
  induction m with
  | nil => unfold Memory.insert; split <;> simp_all [Memory.wf]
  | cons c rest ih =>
    obtain ⟨c, t⟩ := c
    have h' := h
    simp only [Memory.wf, Bool.and_eq_true, List.all_eq_true, decide_eq_true_eq] at h'
    obtain ⟨⟨⟨hc, hct⟩, hall⟩, hrest⟩ := h'
    unfold Memory.insert
    split
    · rename_i hac
      split
      · exact h
      · rename_i hu
        rw [Memory.wf]
        simp only [Bool.and_eq_true, List.all_eq_true, decide_eq_true_eq]
        refine ⟨⟨⟨ha, by simpa using hu⟩, ?_⟩, h⟩
        intro e he
        rcases List.mem_cons.mp he with rfl | he
        · exact hac
        · exact Nat.lt_trans hac (hall e he)
    · split
      · rename_i hac
        subst hac
        split
        · exact hrest
        · rename_i hu
          simp only [Memory.wf, Bool.and_eq_true, List.all_eq_true, decide_eq_true_eq]
          exact ⟨⟨⟨ha, by simpa using hu⟩, hall⟩, hrest⟩
      · rename_i hne hac
        simp only [Memory.wf, Bool.and_eq_true, List.all_eq_true, decide_eq_true_eq]
        refine ⟨⟨⟨hc, hct⟩, ?_⟩, ih hrest⟩
        intro e he
        rcases Memory.mem_insert he with rfl | he
        · simp only; omega
        · exact hall e he

theorem Memory.wf_write (h : m.wf = true) : (m.write a u).wf = true := by
  unfold Memory.write
  split
  · exact Memory.wf_insert h ‹_›
  · exact h

theorem Memory.wf_writeRun {bytes : List Byte} (h : m.wf = true) : (m.writeRun base bytes).wf = true := by
  induction bytes generalizing m base with
  | nil => exact h
  | cons _ _ ih => exact ih (Memory.wf_write h)

/-! ## Runs of bytes -/

/-- What a byte reads as after a run of bytes inside memory was written. -/
theorem Memory.read_writeRun {bytes : List Byte} (h : m.wf = true) (hr : base + bytes.length ≤ Config.memSize) (b : Nat) :
    (m.writeRun base bytes).read b =
      if base ≤ b ∧ b < base + bytes.length then bytes.getD (b - base) 0 else m.read b := by
  induction bytes generalizing m base with
  | nil => simp [Memory.writeRun]
  | cons u rest ih =>
    simp only [List.length_cons] at hr
    rw [Memory.writeRun, ih (Memory.wf_write h) (by omega),
      Memory.read_write m base b u h (by simp only [Config.memSize] at *; omega)]
    by_cases hb : b = base
    · subst hb; simp
    · by_cases hin : base + 1 ≤ b ∧ b < base + 1 + rest.length
      · have : b - base = (b - (base + 1)) + 1 := by omega
        rw [if_pos hin, if_pos (by simp; omega), this]; rfl
      · rw [if_neg hin, if_neg hb, if_neg (by simp; omega)]

/-- A run of bytes leaves every byte outside it alone, wherever it lies. -/
theorem Memory.read_writeRun_outside {bytes : List Byte} (h : m.wf = true) {b : Nat}
    (hb : b < base ∨ base + bytes.length ≤ b) : (m.writeRun base bytes).read b = m.read b := by
  induction bytes generalizing m base with
  | nil => rfl
  | cons u rest ih =>
    simp only [List.length_cons] at hb
    rw [Memory.writeRun, ih (Memory.wf_write h) (by omega)]
    unfold Memory.write
    split
    · rw [Memory.read_insert m base b u h, if_neg (by omega)]
    · rfl

@[simp] theorem Memory.length_readRun (m : Memory) (base n : Nat) : (m.readRun base n).length = n := by
  induction n generalizing base with
  | zero => rfl
  | succ n ih => simp [Memory.readRun, ih]

theorem Memory.getElem?_readRun (m : Memory) (base n k : Nat) (hk : k < n) :
    (m.readRun base n)[k]? = some (m.read (base + k)) := by
  induction n generalizing base k with
  | zero => omega
  | succ n ih =>
    cases k with
    | zero => simp [Memory.readRun]
    | succ k =>
      rw [Memory.readRun, List.getElem?_cons_succ, ih (base + 1) k (by omega)]
      congr 2; omega

end Sys2Proof.Machine
end

