-- ==== Sys2Proof/Laws/State.lean ====
section
/-! SUPPORT. One lemma per field per update of the state, true by rfl, so that no later proof unfolds a record update;
and the field lemmas of the updates that branch. -/

namespace Sys2Proof.Machine

variable (s : State)

/-! ## `State.writeV` -/

@[simp] theorem State.writeV_v (x : Reg) (b : Byte) : (s.writeV x b).v = s.v.set x b := rfl
@[simp] theorem State.writeV_i (x : Reg) (b : Byte) : (s.writeV x b).i = s.i := rfl
@[simp] theorem State.writeV_pc (x : Reg) (b : Byte) : (s.writeV x b).pc = s.pc := rfl
@[simp] theorem State.writeV_sp (x : Reg) (b : Byte) : (s.writeV x b).sp = s.sp := rfl
@[simp] theorem State.writeV_stack (x : Reg) (b : Byte) : (s.writeV x b).stack = s.stack := rfl
@[simp] theorem State.writeV_dt (x : Reg) (b : Byte) : (s.writeV x b).dt = s.dt := rfl
@[simp] theorem State.writeV_st (x : Reg) (b : Byte) : (s.writeV x b).st = s.st := rfl
@[simp] theorem State.writeV_disp (x : Reg) (b : Byte) : (s.writeV x b).disp = s.disp := rfl
@[simp] theorem State.writeV_key (x : Reg) (b : Byte) : (s.writeV x b).key = s.key := rfl
@[simp] theorem State.writeV_await (x : Reg) (b : Byte) : (s.writeV x b).await = s.await := rfl
@[simp] theorem State.writeV_waitPrev (x : Reg) (b : Byte) : (s.writeV x b).waitPrev = s.waitPrev := rfl
@[simp] theorem State.writeV_halt (x : Reg) (b : Byte) : (s.writeV x b).halt = s.halt := rfl
@[simp] theorem State.writeV_mem (x : Reg) (b : Byte) : (s.writeV x b).mem = s.mem := rfl
@[simp] theorem State.writeV_params (x : Reg) (b : Byte) : (s.writeV x b).params = s.params := rfl
@[simp] theorem State.writeV_draws (x : Reg) (b : Byte) : (s.writeV x b).draws = s.draws := rfl

/-! ## `State.advance` -/

@[simp] theorem State.advance_v  : s.advance.v = s.v := rfl
@[simp] theorem State.advance_i  : s.advance.i = s.i := rfl
@[simp] theorem State.advance_pc  : s.advance.pc = s.pc + 2#16 := rfl
@[simp] theorem State.advance_sp  : s.advance.sp = s.sp := rfl
@[simp] theorem State.advance_stack  : s.advance.stack = s.stack := rfl
@[simp] theorem State.advance_dt  : s.advance.dt = s.dt := rfl
@[simp] theorem State.advance_st  : s.advance.st = s.st := rfl
@[simp] theorem State.advance_disp  : s.advance.disp = s.disp := rfl
@[simp] theorem State.advance_key  : s.advance.key = s.key := rfl
@[simp] theorem State.advance_await  : s.advance.await = s.await := rfl
@[simp] theorem State.advance_waitPrev  : s.advance.waitPrev = s.waitPrev := rfl
@[simp] theorem State.advance_halt  : s.advance.halt = s.halt := rfl
@[simp] theorem State.advance_mem  : s.advance.mem = s.mem := rfl
@[simp] theorem State.advance_params  : s.advance.params = s.params := rfl
@[simp] theorem State.advance_draws  : s.advance.draws = s.draws := rfl

/-! ## `State.jump` -/

@[simp] theorem State.jump_v (w : Word) : (s.jump w).v = s.v := rfl
@[simp] theorem State.jump_i (w : Word) : (s.jump w).i = s.i := rfl
@[simp] theorem State.jump_pc (w : Word) : (s.jump w).pc = w := rfl
@[simp] theorem State.jump_sp (w : Word) : (s.jump w).sp = s.sp := rfl
@[simp] theorem State.jump_stack (w : Word) : (s.jump w).stack = s.stack := rfl
@[simp] theorem State.jump_dt (w : Word) : (s.jump w).dt = s.dt := rfl
@[simp] theorem State.jump_st (w : Word) : (s.jump w).st = s.st := rfl
@[simp] theorem State.jump_disp (w : Word) : (s.jump w).disp = s.disp := rfl
@[simp] theorem State.jump_key (w : Word) : (s.jump w).key = s.key := rfl
@[simp] theorem State.jump_await (w : Word) : (s.jump w).await = s.await := rfl
@[simp] theorem State.jump_waitPrev (w : Word) : (s.jump w).waitPrev = s.waitPrev := rfl
@[simp] theorem State.jump_halt (w : Word) : (s.jump w).halt = s.halt := rfl
@[simp] theorem State.jump_mem (w : Word) : (s.jump w).mem = s.mem := rfl
@[simp] theorem State.jump_params (w : Word) : (s.jump w).params = s.params := rfl
@[simp] theorem State.jump_draws (w : Word) : (s.jump w).draws = s.draws := rfl

/-! ## `State.writeI` -/

@[simp] theorem State.writeI_v (w : Word) : (s.writeI w).v = s.v := rfl
@[simp] theorem State.writeI_i (w : Word) : (s.writeI w).i = w := rfl
@[simp] theorem State.writeI_pc (w : Word) : (s.writeI w).pc = s.pc := rfl
@[simp] theorem State.writeI_sp (w : Word) : (s.writeI w).sp = s.sp := rfl
@[simp] theorem State.writeI_stack (w : Word) : (s.writeI w).stack = s.stack := rfl
@[simp] theorem State.writeI_dt (w : Word) : (s.writeI w).dt = s.dt := rfl
@[simp] theorem State.writeI_st (w : Word) : (s.writeI w).st = s.st := rfl
@[simp] theorem State.writeI_disp (w : Word) : (s.writeI w).disp = s.disp := rfl
@[simp] theorem State.writeI_key (w : Word) : (s.writeI w).key = s.key := rfl
@[simp] theorem State.writeI_await (w : Word) : (s.writeI w).await = s.await := rfl
@[simp] theorem State.writeI_waitPrev (w : Word) : (s.writeI w).waitPrev = s.waitPrev := rfl
@[simp] theorem State.writeI_halt (w : Word) : (s.writeI w).halt = s.halt := rfl
@[simp] theorem State.writeI_mem (w : Word) : (s.writeI w).mem = s.mem := rfl
@[simp] theorem State.writeI_params (w : Word) : (s.writeI w).params = s.params := rfl
@[simp] theorem State.writeI_draws (w : Word) : (s.writeI w).draws = s.draws := rfl

/-! ## `State.writeDT` -/

@[simp] theorem State.writeDT_v (b : Byte) : (s.writeDT b).v = s.v := rfl
@[simp] theorem State.writeDT_i (b : Byte) : (s.writeDT b).i = s.i := rfl
@[simp] theorem State.writeDT_pc (b : Byte) : (s.writeDT b).pc = s.pc := rfl
@[simp] theorem State.writeDT_sp (b : Byte) : (s.writeDT b).sp = s.sp := rfl
@[simp] theorem State.writeDT_stack (b : Byte) : (s.writeDT b).stack = s.stack := rfl
@[simp] theorem State.writeDT_dt (b : Byte) : (s.writeDT b).dt = b := rfl
@[simp] theorem State.writeDT_st (b : Byte) : (s.writeDT b).st = s.st := rfl
@[simp] theorem State.writeDT_disp (b : Byte) : (s.writeDT b).disp = s.disp := rfl
@[simp] theorem State.writeDT_key (b : Byte) : (s.writeDT b).key = s.key := rfl
@[simp] theorem State.writeDT_await (b : Byte) : (s.writeDT b).await = s.await := rfl
@[simp] theorem State.writeDT_waitPrev (b : Byte) : (s.writeDT b).waitPrev = s.waitPrev := rfl
@[simp] theorem State.writeDT_halt (b : Byte) : (s.writeDT b).halt = s.halt := rfl
@[simp] theorem State.writeDT_mem (b : Byte) : (s.writeDT b).mem = s.mem := rfl
@[simp] theorem State.writeDT_params (b : Byte) : (s.writeDT b).params = s.params := rfl
@[simp] theorem State.writeDT_draws (b : Byte) : (s.writeDT b).draws = s.draws := rfl

/-! ## `State.writeST` -/

@[simp] theorem State.writeST_v (b : Byte) : (s.writeST b).v = s.v := rfl
@[simp] theorem State.writeST_i (b : Byte) : (s.writeST b).i = s.i := rfl
@[simp] theorem State.writeST_pc (b : Byte) : (s.writeST b).pc = s.pc := rfl
@[simp] theorem State.writeST_sp (b : Byte) : (s.writeST b).sp = s.sp := rfl
@[simp] theorem State.writeST_stack (b : Byte) : (s.writeST b).stack = s.stack := rfl
@[simp] theorem State.writeST_dt (b : Byte) : (s.writeST b).dt = s.dt := rfl
@[simp] theorem State.writeST_st (b : Byte) : (s.writeST b).st = b := rfl
@[simp] theorem State.writeST_disp (b : Byte) : (s.writeST b).disp = s.disp := rfl
@[simp] theorem State.writeST_key (b : Byte) : (s.writeST b).key = s.key := rfl
@[simp] theorem State.writeST_await (b : Byte) : (s.writeST b).await = s.await := rfl
@[simp] theorem State.writeST_waitPrev (b : Byte) : (s.writeST b).waitPrev = s.waitPrev := rfl
@[simp] theorem State.writeST_halt (b : Byte) : (s.writeST b).halt = s.halt := rfl
@[simp] theorem State.writeST_mem (b : Byte) : (s.writeST b).mem = s.mem := rfl
@[simp] theorem State.writeST_params (b : Byte) : (s.writeST b).params = s.params := rfl
@[simp] theorem State.writeST_draws (b : Byte) : (s.writeST b).draws = s.draws := rfl

/-! ## `State.store` -/

@[simp] theorem State.store_v (a : Nat) (bs : List Byte) : (s.store a bs).v = s.v := rfl
@[simp] theorem State.store_i (a : Nat) (bs : List Byte) : (s.store a bs).i = s.i := rfl
@[simp] theorem State.store_pc (a : Nat) (bs : List Byte) : (s.store a bs).pc = s.pc := rfl
@[simp] theorem State.store_sp (a : Nat) (bs : List Byte) : (s.store a bs).sp = s.sp := rfl
@[simp] theorem State.store_stack (a : Nat) (bs : List Byte) : (s.store a bs).stack = s.stack := rfl
@[simp] theorem State.store_dt (a : Nat) (bs : List Byte) : (s.store a bs).dt = s.dt := rfl
@[simp] theorem State.store_st (a : Nat) (bs : List Byte) : (s.store a bs).st = s.st := rfl
@[simp] theorem State.store_disp (a : Nat) (bs : List Byte) : (s.store a bs).disp = s.disp := rfl
@[simp] theorem State.store_key (a : Nat) (bs : List Byte) : (s.store a bs).key = s.key := rfl
@[simp] theorem State.store_await (a : Nat) (bs : List Byte) : (s.store a bs).await = s.await := rfl
@[simp] theorem State.store_waitPrev (a : Nat) (bs : List Byte) : (s.store a bs).waitPrev = s.waitPrev := rfl
@[simp] theorem State.store_halt (a : Nat) (bs : List Byte) : (s.store a bs).halt = s.halt := rfl
@[simp] theorem State.store_mem (a : Nat) (bs : List Byte) : (s.store a bs).mem = s.mem.writeRun a bs := rfl
@[simp] theorem State.store_params (a : Nat) (bs : List Byte) : (s.store a bs).params = s.params := rfl
@[simp] theorem State.store_draws (a : Nat) (bs : List Byte) : (s.store a bs).draws = s.draws := rfl

/-! ## `State.loadRegs` -/

@[simp] theorem State.loadRegs_v (a : Nat) (x : Reg) : (s.loadRegs a x).v = s.v.mapIdx (fun k b => if k ≤ x.val then s.mem.read (a + k) else b) := rfl
@[simp] theorem State.loadRegs_i (a : Nat) (x : Reg) : (s.loadRegs a x).i = s.i := rfl
@[simp] theorem State.loadRegs_pc (a : Nat) (x : Reg) : (s.loadRegs a x).pc = s.pc := rfl
@[simp] theorem State.loadRegs_sp (a : Nat) (x : Reg) : (s.loadRegs a x).sp = s.sp := rfl
@[simp] theorem State.loadRegs_stack (a : Nat) (x : Reg) : (s.loadRegs a x).stack = s.stack := rfl
@[simp] theorem State.loadRegs_dt (a : Nat) (x : Reg) : (s.loadRegs a x).dt = s.dt := rfl
@[simp] theorem State.loadRegs_st (a : Nat) (x : Reg) : (s.loadRegs a x).st = s.st := rfl
@[simp] theorem State.loadRegs_disp (a : Nat) (x : Reg) : (s.loadRegs a x).disp = s.disp := rfl
@[simp] theorem State.loadRegs_key (a : Nat) (x : Reg) : (s.loadRegs a x).key = s.key := rfl
@[simp] theorem State.loadRegs_await (a : Nat) (x : Reg) : (s.loadRegs a x).await = s.await := rfl
@[simp] theorem State.loadRegs_waitPrev (a : Nat) (x : Reg) : (s.loadRegs a x).waitPrev = s.waitPrev := rfl
@[simp] theorem State.loadRegs_halt (a : Nat) (x : Reg) : (s.loadRegs a x).halt = s.halt := rfl
@[simp] theorem State.loadRegs_mem (a : Nat) (x : Reg) : (s.loadRegs a x).mem = s.mem := rfl
@[simp] theorem State.loadRegs_params (a : Nat) (x : Reg) : (s.loadRegs a x).params = s.params := rfl
@[simp] theorem State.loadRegs_draws (a : Nat) (x : Reg) : (s.loadRegs a x).draws = s.draws := rfl

/-! ## `State.fatal` -/

@[simp] theorem State.fatal_v (c : Cause) (w : Option Word) : (s.fatal c w).v = s.v := rfl
@[simp] theorem State.fatal_i (c : Cause) (w : Option Word) : (s.fatal c w).i = s.i := rfl
@[simp] theorem State.fatal_pc (c : Cause) (w : Option Word) : (s.fatal c w).pc = s.pc := rfl
@[simp] theorem State.fatal_sp (c : Cause) (w : Option Word) : (s.fatal c w).sp = s.sp := rfl
@[simp] theorem State.fatal_stack (c : Cause) (w : Option Word) : (s.fatal c w).stack = s.stack := rfl
@[simp] theorem State.fatal_dt (c : Cause) (w : Option Word) : (s.fatal c w).dt = s.dt := rfl
@[simp] theorem State.fatal_st (c : Cause) (w : Option Word) : (s.fatal c w).st = s.st := rfl
@[simp] theorem State.fatal_disp (c : Cause) (w : Option Word) : (s.fatal c w).disp = s.disp := rfl
@[simp] theorem State.fatal_key (c : Cause) (w : Option Word) : (s.fatal c w).key = s.key := rfl
@[simp] theorem State.fatal_await (c : Cause) (w : Option Word) : (s.fatal c w).await = s.await := rfl
@[simp] theorem State.fatal_waitPrev (c : Cause) (w : Option Word) : (s.fatal c w).waitPrev = s.waitPrev := rfl
@[simp] theorem State.fatal_halt (c : Cause) (w : Option Word) : (s.fatal c w).halt = some ⟨c.kind, w, s.pc, c.info⟩ := rfl
@[simp] theorem State.fatal_mem (c : Cause) (w : Option Word) : (s.fatal c w).mem = s.mem := rfl
@[simp] theorem State.fatal_params (c : Cause) (w : Option Word) : (s.fatal c w).params = s.params := rfl
@[simp] theorem State.fatal_draws (c : Cause) (w : Option Word) : (s.fatal c w).draws = s.draws := rfl

/-! ## `State.setKey` -/

@[simp] theorem State.setKey_v (k : Key) (b : Bool) : (s.setKey k b).v = s.v := rfl
@[simp] theorem State.setKey_i (k : Key) (b : Bool) : (s.setKey k b).i = s.i := rfl
@[simp] theorem State.setKey_pc (k : Key) (b : Bool) : (s.setKey k b).pc = s.pc := rfl
@[simp] theorem State.setKey_sp (k : Key) (b : Bool) : (s.setKey k b).sp = s.sp := rfl
@[simp] theorem State.setKey_stack (k : Key) (b : Bool) : (s.setKey k b).stack = s.stack := rfl
@[simp] theorem State.setKey_dt (k : Key) (b : Bool) : (s.setKey k b).dt = s.dt := rfl
@[simp] theorem State.setKey_st (k : Key) (b : Bool) : (s.setKey k b).st = s.st := rfl
@[simp] theorem State.setKey_disp (k : Key) (b : Bool) : (s.setKey k b).disp = s.disp := rfl
@[simp] theorem State.setKey_key (k : Key) (b : Bool) : (s.setKey k b).key = s.key.set k b := rfl
@[simp] theorem State.setKey_await (k : Key) (b : Bool) : (s.setKey k b).await = s.await := rfl
@[simp] theorem State.setKey_waitPrev (k : Key) (b : Bool) : (s.setKey k b).waitPrev = s.waitPrev := rfl
@[simp] theorem State.setKey_halt (k : Key) (b : Bool) : (s.setKey k b).halt = s.halt := rfl
@[simp] theorem State.setKey_mem (k : Key) (b : Bool) : (s.setKey k b).mem = s.mem := rfl
@[simp] theorem State.setKey_params (k : Key) (b : Bool) : (s.setKey k b).params = s.params := rfl
@[simp] theorem State.setKey_draws (k : Key) (b : Bool) : (s.setKey k b).draws = s.draws := rfl

/-! ## `State.skipIf` -/

@[simp] theorem State.skipIf_v (c : Bool) : (s.skipIf c).v = s.v := by cases c <;> rfl
@[simp] theorem State.skipIf_i (c : Bool) : (s.skipIf c).i = s.i := by cases c <;> rfl
@[simp] theorem State.skipIf_pc (c : Bool) : (s.skipIf c).pc = if c then s.pc + 4#16 else s.pc + 2#16 := by cases c <;> simp [State.skipIf, BitVec.add_assoc]
@[simp] theorem State.skipIf_sp (c : Bool) : (s.skipIf c).sp = s.sp := by cases c <;> rfl
@[simp] theorem State.skipIf_stack (c : Bool) : (s.skipIf c).stack = s.stack := by cases c <;> rfl
@[simp] theorem State.skipIf_dt (c : Bool) : (s.skipIf c).dt = s.dt := by cases c <;> rfl
@[simp] theorem State.skipIf_st (c : Bool) : (s.skipIf c).st = s.st := by cases c <;> rfl
@[simp] theorem State.skipIf_disp (c : Bool) : (s.skipIf c).disp = s.disp := by cases c <;> rfl
@[simp] theorem State.skipIf_key (c : Bool) : (s.skipIf c).key = s.key := by cases c <;> rfl
@[simp] theorem State.skipIf_await (c : Bool) : (s.skipIf c).await = s.await := by cases c <;> rfl
@[simp] theorem State.skipIf_waitPrev (c : Bool) : (s.skipIf c).waitPrev = s.waitPrev := by cases c <;> rfl
@[simp] theorem State.skipIf_halt (c : Bool) : (s.skipIf c).halt = s.halt := by cases c <;> rfl
@[simp] theorem State.skipIf_mem (c : Bool) : (s.skipIf c).mem = s.mem := by cases c <;> rfl
@[simp] theorem State.skipIf_params (c : Bool) : (s.skipIf c).params = s.params := by cases c <;> rfl
@[simp] theorem State.skipIf_draws (c : Bool) : (s.skipIf c).draws = s.draws := by cases c <;> rfl

/-! ## `State.writeWithFlag` -/

@[simp] theorem State.writeWithFlag_i (x : Reg) (r : Byte) (f : Bool) : (s.writeWithFlag x r f).i = s.i := by unfold State.writeWithFlag; split <;> rfl
@[simp] theorem State.writeWithFlag_pc (x : Reg) (r : Byte) (f : Bool) : (s.writeWithFlag x r f).pc = s.pc := by unfold State.writeWithFlag; split <;> rfl
@[simp] theorem State.writeWithFlag_sp (x : Reg) (r : Byte) (f : Bool) : (s.writeWithFlag x r f).sp = s.sp := by unfold State.writeWithFlag; split <;> rfl
@[simp] theorem State.writeWithFlag_stack (x : Reg) (r : Byte) (f : Bool) : (s.writeWithFlag x r f).stack = s.stack := by unfold State.writeWithFlag; split <;> rfl
@[simp] theorem State.writeWithFlag_dt (x : Reg) (r : Byte) (f : Bool) : (s.writeWithFlag x r f).dt = s.dt := by unfold State.writeWithFlag; split <;> rfl
@[simp] theorem State.writeWithFlag_st (x : Reg) (r : Byte) (f : Bool) : (s.writeWithFlag x r f).st = s.st := by unfold State.writeWithFlag; split <;> rfl
@[simp] theorem State.writeWithFlag_disp (x : Reg) (r : Byte) (f : Bool) : (s.writeWithFlag x r f).disp = s.disp := by unfold State.writeWithFlag; split <;> rfl
@[simp] theorem State.writeWithFlag_key (x : Reg) (r : Byte) (f : Bool) : (s.writeWithFlag x r f).key = s.key := by unfold State.writeWithFlag; split <;> rfl
@[simp] theorem State.writeWithFlag_await (x : Reg) (r : Byte) (f : Bool) : (s.writeWithFlag x r f).await = s.await := by unfold State.writeWithFlag; split <;> rfl
@[simp] theorem State.writeWithFlag_waitPrev (x : Reg) (r : Byte) (f : Bool) : (s.writeWithFlag x r f).waitPrev = s.waitPrev := by unfold State.writeWithFlag; split <;> rfl
@[simp] theorem State.writeWithFlag_halt (x : Reg) (r : Byte) (f : Bool) : (s.writeWithFlag x r f).halt = s.halt := by unfold State.writeWithFlag; split <;> rfl
@[simp] theorem State.writeWithFlag_mem (x : Reg) (r : Byte) (f : Bool) : (s.writeWithFlag x r f).mem = s.mem := by unfold State.writeWithFlag; split <;> rfl
@[simp] theorem State.writeWithFlag_params (x : Reg) (r : Byte) (f : Bool) : (s.writeWithFlag x r f).params = s.params := by unfold State.writeWithFlag; split <;> rfl
@[simp] theorem State.writeWithFlag_draws (x : Reg) (r : Byte) (f : Bool) : (s.writeWithFlag x r f).draws = s.draws := by unfold State.writeWithFlag; split <;> rfl

/-! ## `State.logicResult` -/

@[simp] theorem State.logicResult_i (x : Reg) (r : Byte) : (s.logicResult x r).i = s.i := by unfold State.logicResult; split <;> simp
@[simp] theorem State.logicResult_pc (x : Reg) (r : Byte) : (s.logicResult x r).pc = s.pc := by unfold State.logicResult; split <;> simp
@[simp] theorem State.logicResult_sp (x : Reg) (r : Byte) : (s.logicResult x r).sp = s.sp := by unfold State.logicResult; split <;> simp
@[simp] theorem State.logicResult_stack (x : Reg) (r : Byte) : (s.logicResult x r).stack = s.stack := by unfold State.logicResult; split <;> simp
@[simp] theorem State.logicResult_dt (x : Reg) (r : Byte) : (s.logicResult x r).dt = s.dt := by unfold State.logicResult; split <;> simp
@[simp] theorem State.logicResult_st (x : Reg) (r : Byte) : (s.logicResult x r).st = s.st := by unfold State.logicResult; split <;> simp
@[simp] theorem State.logicResult_disp (x : Reg) (r : Byte) : (s.logicResult x r).disp = s.disp := by unfold State.logicResult; split <;> simp
@[simp] theorem State.logicResult_key (x : Reg) (r : Byte) : (s.logicResult x r).key = s.key := by unfold State.logicResult; split <;> simp
@[simp] theorem State.logicResult_await (x : Reg) (r : Byte) : (s.logicResult x r).await = s.await := by unfold State.logicResult; split <;> simp
@[simp] theorem State.logicResult_waitPrev (x : Reg) (r : Byte) : (s.logicResult x r).waitPrev = s.waitPrev := by unfold State.logicResult; split <;> simp
@[simp] theorem State.logicResult_halt (x : Reg) (r : Byte) : (s.logicResult x r).halt = s.halt := by unfold State.logicResult; split <;> simp
@[simp] theorem State.logicResult_mem (x : Reg) (r : Byte) : (s.logicResult x r).mem = s.mem := by unfold State.logicResult; split <;> simp
@[simp] theorem State.logicResult_params (x : Reg) (r : Byte) : (s.logicResult x r).params = s.params := by unfold State.logicResult; split <;> simp
@[simp] theorem State.logicResult_draws (x : Reg) (r : Byte) : (s.logicResult x r).draws = s.draws := by unfold State.logicResult; split <;> simp

end Sys2Proof.Machine
end

