-- ==== Sys2Proof/Laws/Ops.lean ====
section
/-! SUPPORT. One lemma per shared operation that says everything it can do; the proofs about instructions cite these
and unfold no operation. -/

namespace Sys2Proof.Machine

/-! ## Registers and flags -/

theorem State.writeV_get (s : State) (x k : Reg) (b : Byte) :
    (s.writeV x b).v[k] = if k = x then b else s.v[k] := by
  simp only [State.writeV_v, Fin.getElem_fin, Vector.getElem_set]
  by_cases h : k = x
  · subst h; simp
  · rw [if_neg (fun e => h (Fin.ext e.symm)), if_neg h]

/-- Result and flag land where `flaggedReg` says, in either write order (R160). -/
theorem State.writeWithFlag_get (s : State) (x k : Reg) (r : Byte) (f : Bool) :
    (s.writeWithFlag x r f).v[k] = flaggedReg s x r f k := by
  unfold State.writeWithFlag flaggedReg flagByte
  cases hv : s.params.vfOrder <;> simp only [State.writeV_get, flagReg]
  · by_cases hk : k = 15 <;> simp [hk]
  · by_cases hk : k = 15
    · subst hk
      by_cases hx : (15 : Reg) = x
      · simp [← hx]
      · simp [hx, Ne.symm hx]
    · simp [hk]

/-- A logic result lands where `logicReg` says (R165). -/
theorem State.logicResult_get (s : State) (x k : Reg) (r : Byte) :
    (s.logicResult x r).v[k] = logicReg s x r k := by
  unfold State.logicResult logicReg
  cases s.params.logicVf
  · simp only [State.writeV_get]; simp
  · simp only [State.writeWithFlag_get]; simp

theorem State.loadRegs_get (s : State) (base : Nat) (x k : Reg) :
    (s.loadRegs base x).v[k] = if k ≤ x then s.mem.read (base + k.val) else s.v[k] := by
  simp only [State.loadRegs_v, Fin.getElem_fin, Vector.getElem_mapIdx, Fin.le_def]

/-! ## Checks -/

theorem checkRange_eq (base count : Nat) (hc : 0 < count) :
    checkRange base count =
      if base + count ≤ 0x1000 then none else some { kind := .bounds, info := some (max base 0x1000) } := by
  unfold checkRange
  by_cases h : base + count ≤ 0x1000
  · rw [if_neg (by omega), if_pos h]
  · rw [if_pos (by omega), if_neg h]

theorem checkWritable_eq (p : Params) (base count : Nat) (hc : 0 < count) :
    checkWritable p base count =
      if base + count ≤ 0x1000 then
        if p.reservedWrite = .fault ∧ base < 0x200 then some { kind := .reservedWrite, info := some base } else none
      else some { kind := .bounds, info := some (max base 0x1000) } := by
  unfold checkWritable
  rw [checkRange_eq base count hc]
  by_cases h : base + count ≤ 0x1000 <;> simp [h]

theorem checkWritable_none_iff (s : State) (count : Nat) (hc : 0 < count) :
    checkWritable s.params s.i.toNat count = none ↔ storeAllowed s count := by
  rw [checkWritable_eq _ _ _ hc]
  unfold storeAllowed
  cases hp : s.params.reservedWrite <;>
    by_cases h : s.i.toNat + count ≤ 0x1000 <;> by_cases h2 : s.i.toNat < 0x200 <;> simp [h, h2] <;> omega

theorem fetchCheck_none_iff (s : State) : fetchCheck s.params s.pc = none ↔ fetchable s := by
  unfold fetchCheck fetchable
  cases hp : s.params.oddPc <;>
    by_cases h : s.pc.toNat + 1 > 0xFFF <;> by_cases h2 : s.pc.toNat % 2 = 1 <;> simp [h, h2] <;> omega

theorem fetchWord_eq (s : State) : fetchWord s.mem s.pc.toNat = opcodeAt s := by
  apply BitVec.eq_of_toNat_eq
  rw [fetchWord, toNat_joinBytes, opcodeAt, BitVec.toNat_ofNat]
  omega

/-! ## The call stack -/

theorem State.push_of_lt (s : State) (ret : Word) (h : s.sp.val < 16) :
    s.push ret = some { s with stack := s.stack.set s.sp.val ret, sp := ⟨s.sp.val + 1, by omega⟩ } := by
  simp [State.push, h]

theorem State.push_of_full (s : State) (ret : Word) (h : s.sp.val = 16) : s.push ret = none := by
  simp [State.push, h]

theorem State.pop_of_pos (s : State) (h : 0 < s.sp.val) :
    s.pop = some (s.stack[s.sp.val - 1]'(by omega), { s with sp := ⟨s.sp.val - 1, by omega⟩ }) := by
  simp [State.pop, h]

theorem State.pop_of_empty (s : State) (h : s.sp.val = 0) : s.pop = none := by
  simp [State.pop, h]

/-! ## The input latch -/

theorem lowestKey_eq_none_iff (ks : Vector Bool 16) : lowestKey ks = none ↔ ∀ k : Key, ks[k] = false := by
  simp [lowestKey, List.find?_eq_none]

/-- The key taken is held, and no lower one is (R256). -/
theorem lowestKey_eq_some_iff (ks : Vector Bool 16) (k : Key) :
    lowestKey ks = some k ↔ ks[k] = true ∧ ∀ j : Key, j < k → ks[j] = false := by
  unfold lowestKey
  rw [List.find?_eq_some_iff_getElem]
  constructor
  · rintro ⟨hk, n, hn, hnk, hlt⟩
    refine ⟨by simpa using hk, fun j hj => ?_⟩
    have hn16 : n < 16 := by simpa using hn
    have hkn : k.val = n := by rw [← hnk]; simp
    have hj' : j.val < n := hkn ▸ hj
    have := hlt j.val hj'
    simpa using this
  · rintro ⟨hk, hlt⟩
    refine ⟨by simpa using hk, k.val, by simp, by simp, fun j hj => ?_⟩
    have := hlt ⟨j, by omega⟩ (by simpa [Fin.lt_def] using hj)
    simpa using this

/-- A key qualifies at a sample: held, and under `edge` not held at the previous one (R254, R255). -/
theorem State.candidates_get (s : State) (k : Key) :
    s.candidates[k] = (s.key[k] && (decide (s.params.keyWait = .level) || !s.waitPrev[k])) := by
  unfold State.candidates
  cases s.params.keyWait <;> simp

/-! ## The front of the cycle -/

/-- Everything the front of a step can do (R131 to R136). -/
theorem State.front_cases (s : State) :
    (∃ r, s.halt = some r ∧ s.front = .done s) ∨
    (∃ x, s.halt = none ∧ s.await = some x ∧ s.front = .done (s.pollKey x)) ∨
    (running s ∧ ∃ c, fetchCheck s.params s.pc = some c ∧ s.front = .done (s.fatal c none)) ∨
    (running s ∧ fetchable s ∧ (∃ e, decode (opcodeAt s) = .error e) ∧
      s.front = .done (s.fatal { kind := .decode, info := none } (some (opcodeAt s)))) ∨
    (∃ i, executes s i ∧ s.front = .run i) := by
  unfold State.front
  cases hh : s.halt with
  | some r => exact .inl ⟨r, rfl, by simp⟩
  | none =>
    cases ha : s.await with
    | some x => exact .inr (.inl ⟨x, rfl, rfl, by simp⟩)
    | none =>
      cases hc : fetchCheck s.params s.pc with
      | some c => exact .inr (.inr (.inl ⟨⟨hh, ha⟩, c, rfl, by simp⟩))
      | none =>
        have hf := (fetchCheck_none_iff s).mp hc
        simp only [fetchWord_eq]
        cases hd : decode (opcodeAt s) with
        | ok i => exact .inr (.inr (.inr (.inr ⟨i, ⟨⟨hh, ha⟩, hf, hd⟩, by simp⟩)))
        | error e => exact .inr (.inr (.inr (.inl ⟨⟨hh, ha⟩, hf, ⟨e, rfl⟩, by simp⟩)))

/-- Everything a step that answers a state can have done. -/
theorem step_cases {s t : State} (h : step s = .next t) :
    (∃ r, s.halt = some r ∧ t = s) ∨
    (∃ x, s.halt = none ∧ s.await = some x ∧ t = s.pollKey x) ∨
    (running s ∧ ∃ c, fetchCheck s.params s.pc = some c ∧ t = s.fatal c none) ∨
    (running s ∧ fetchable s ∧ (∃ e, decode (opcodeAt s) = .error e) ∧
      t = s.fatal { kind := .decode, info := none } (some (opcodeAt s))) ∨
    (∃ i, executes s i ∧ exec i s = .next t) := by
  unfold step at h
  rcases s.front_cases with ⟨r, hr, hf⟩ | ⟨x, hh, ha, hf⟩ | ⟨hr, c, hc, hf⟩ | ⟨hr, hp, he, hf⟩ | ⟨i, hi, hf⟩ <;>
    rw [hf] at h
  · exact .inl ⟨r, hr, by simpa using h.symm⟩
  · exact .inr (.inl ⟨x, hh, ha, by simpa using h.symm⟩)
  · exact .inr (.inr (.inl ⟨hr, c, hc, by simpa using h.symm⟩))
  · exact .inr (.inr (.inr (.inl ⟨hr, hp, he, by simpa using h.symm⟩)))
  · exact .inr (.inr (.inr (.inr ⟨i, hi, h⟩)))

/-- Everything a poll can do (R254). -/
theorem State.pollKey_cases (s : State) (x : Reg) :
    (∃ k, lowestKey s.candidates = some k ∧
      s.pollKey x = { (s.writeV x (keyByte k)).advance with await := none }) ∨
    (lowestKey s.candidates = none ∧ s.params.keyWait = .level ∧ s.pollKey x = s) ∨
    (lowestKey s.candidates = none ∧ s.params.keyWait = .edge ∧ s.pollKey x = { s with waitPrev := s.key }) := by
  unfold State.pollKey
  cases hc : lowestKey s.candidates with
  | some k => exact .inl ⟨k, rfl, rfl⟩
  | none => cases hk : s.params.keyWait <;> simp

end Sys2Proof.Machine
end

