-- ==== Sys2Proof/Laws/Display.lean ====
section
/-! SUPPORT. What drawing does, pixel by pixel (42_display.md R202-R208): the loop over rows and columns flips exactly
the pixels the sprite covers, each once, and collides where a covered pixel was on. -/

namespace Sys2Proof.Machine

theorem blankDisplay_get (px : Fin 64) (py : Fin 32) : blankDisplay[px][py] = false := by
  simp [blankDisplay]

theorem Display.setPixel_get (d : Display) (px qx : Fin 64) (py qy : Fin 32) (b : Bool) :
    (d.setPixel px py b)[qx][qy] = if qx = px ∧ qy = py then b else d[qx][qy] := by
  unfold Display.setPixel
  simp only [Fin.getElem_fin, Vector.getElem_set]
  by_cases hx : qx = px
  · subst hx
    by_cases hy : qy = py
    · subst hy; simp
    · have hy' : ¬ py.val = qy.val := fun e => hy (Fin.ext e.symm)
      simp [hy, hy', Vector.getElem_set]
  · have hx' : ¬ px.val = qx.val := fun e => hx (Fin.ext e.symm)
    simp [hx, hx']

/-- Flip one pixel and note a collision. -/
def flipAt (acc : DrawState) (p : Fin 64 × Fin 32) : DrawState :=
  (acc.1.setPixel p.1 p.2 (!acc.1.pixel p.1 p.2), acc.2 || acc.1.pixel p.1 p.2)

/-- The pixels under the 1-bits of row `r`. -/
def rowPixels (vx vy : Byte) (r : Nat) (b : Byte) : List (Fin 64 × Fin 32) :=
  (List.range 8).flatMap fun c => if spriteBit b c then [(spriteColumn vx c, spriteRow vy r)] else []

/-- The pixels under the 1-bits of the rows `r`, `r + 1`, … -/
def rowsPixels (vx vy : Byte) : Nat → List Byte → List (Fin 64 × Fin 32)
  | _, [] => []
  | r, b :: rest => rowPixels vx vy r b ++ rowsPixels vx vy (r + 1) rest

theorem drawRow_eq_foldl (vx vy : Byte) (r : Nat) (b : Byte) (acc : DrawState) :
    drawRow vx vy r b acc = (rowPixels vx vy r b).foldl flipAt acc := by
  unfold drawRow rowPixels
  generalize List.range 8 = cs
  induction cs generalizing acc with
  | nil => rfl
  | cons c cs ih =>
    rw [List.foldl_cons, List.flatMap_cons, List.foldl_append, ih]
    congr 1
    unfold drawBit
    by_cases hb : spriteBit b c = true <;> simp [hb, flipAt]

theorem drawRows_eq_foldl (vx vy : Byte) (bytes : List Byte) (r : Nat) (acc : DrawState) :
    drawRows vx vy r bytes acc = (rowsPixels vx vy r bytes).foldl flipAt acc := by
  induction bytes generalizing r acc with
  | nil => rfl
  | cons b rest ih => rw [drawRows, rowsPixels, List.foldl_append, ih, drawRow_eq_foldl]

/-- Flipping distinct pixels: each is flipped once, and a collision is a flipped pixel that was on. -/
theorem foldl_flipAt (ps : List (Fin 64 × Fin 32)) (hn : ps.Nodup) (acc : DrawState) :
    (∀ (px : Fin 64) (py : Fin 32),
      (ps.foldl flipAt acc).1[px][py] = (acc.1[px][py] ^^ decide ((px, py) ∈ ps))) ∧
    ((ps.foldl flipAt acc).2 = true ↔ acc.2 = true ∨ ∃ p ∈ ps, acc.1[p.1][p.2] = true) := by
  induction ps generalizing acc with
  | nil => simp
  | cons p ps ih =>
    obtain ⟨hp, hn⟩ := List.nodup_cons.mp hn
    obtain ⟨ih1, ih2⟩ := ih hn (flipAt acc p)
    have hget : ∀ (px : Fin 64) (py : Fin 32), (flipAt acc p).1[px][py] =
        if px = p.1 ∧ py = p.2 then !acc.1[p.1][p.2] else acc.1[px][py] := fun px py =>
      Display.setPixel_get _ _ _ _ _ _
    constructor
    · intro px py
      rw [List.foldl_cons, ih1, hget]
      by_cases he : px = p.1 ∧ py = p.2
      · obtain ⟨rfl, rfl⟩ := he
        simp [hp]
      · have : ((px, py) : Fin 64 × Fin 32) ≠ p := fun e => he (by rw [← e]; exact ⟨rfl, rfl⟩)
        rw [if_neg he]
        simp [this]
    · rw [List.foldl_cons, ih2]
      have h2 : (flipAt acc p).2 = (acc.2 || acc.1[p.1][p.2]) := rfl
      have hq : ∀ q ∈ ps, (flipAt acc p).1[q.1][q.2] = acc.1[q.1][q.2] := by
        intro q hq
        rw [hget, if_neg]
        rintro ⟨h1, h2⟩
        exact hp (by rw [← Prod.ext h1 h2]; exact hq)
      rw [h2, Bool.or_eq_true]
      constructor
      · rintro ((h | h) | ⟨q, hq', h⟩)
        · exact .inl h
        · exact .inr ⟨p, List.mem_cons_self, h⟩
        · exact .inr ⟨q, List.mem_cons_of_mem _ hq', by rw [hq q hq'] at h; exact h⟩
      · rintro (h | ⟨q, hq', h⟩)
        · exact .inl (.inl h)
        · rcases List.mem_cons.mp hq' with rfl | hq'
          · exact .inl (.inr h)
          · exact .inr ⟨q, hq', by rw [hq q hq']; exact h⟩

theorem val_spriteColumn (vx : Byte) (c : Nat) : (spriteColumn vx c).val = (vx.toNat % 64 + c) % 64 := rfl

theorem val_spriteRow (vy : Byte) (r : Nat) : (spriteRow vy r).val = (vy.toNat % 32 + r) % 32 := rfl

theorem mem_rowPixels {vx vy : Byte} {r : Nat} {b : Byte} {p : Fin 64 × Fin 32} :
    p ∈ rowPixels vx vy r b ↔ ∃ c, c < 8 ∧ spriteBit b c = true ∧ p = (spriteColumn vx c, spriteRow vy r) := by
  unfold rowPixels
  simp only [List.mem_flatMap, List.mem_range]
  constructor
  · rintro ⟨c, hc, h⟩
    split at h
    · exact ⟨c, hc, ‹_›, by simpa using h⟩
    · simp at h
  · rintro ⟨c, hc, hb, rfl⟩
    exact ⟨c, hc, by simp [hb]⟩

theorem mem_rowsPixels {vx vy : Byte} {bytes : List Byte} {r : Nat} {p : Fin 64 × Fin 32} :
    p ∈ rowsPixels vx vy r bytes ↔
      ∃ k b, bytes[k]? = some b ∧ p ∈ rowPixels vx vy (r + k) b := by
  induction bytes generalizing r with
  | nil => simp [rowsPixels]
  | cons b rest ih =>
    rw [rowsPixels, List.mem_append, ih]
    constructor
    · rintro (h | ⟨k, b', hk, h⟩)
      · exact ⟨0, b, rfl, h⟩
      · exact ⟨k + 1, b', hk, by rwa [show r + (k + 1) = r + 1 + k by omega]⟩
    · rintro ⟨k, b', hk, h⟩
      cases k with
      | zero => simp only [List.getElem?_cons_zero, Option.some.injEq] at hk; subst hk; exact .inl h
      | succ k => exact .inr ⟨k, b', hk, by rwa [show r + 1 + k = r + (k + 1) by omega]⟩

theorem nodup_rowPixels (vx vy : Byte) (r : Nat) (b : Byte) : (rowPixels vx vy r b).Nodup := by
  unfold rowPixels
  rw [List.nodup_flatMap]
  refine ⟨fun c _ => by split <;> simp, List.nodup_range.imp_of_mem ?_⟩
  intro c c' hc hc' hne p hp hp'
  simp only [List.mem_range] at hc hc'
  simp only at hp hp'
  split at hp <;> split at hp' <;> simp_all
  have := congrArg Fin.val hp'
  simp only [val_spriteColumn] at this
  omega

theorem nodup_rowsPixels (vx vy : Byte) (bytes : List Byte) (r : Nat) (hlen : bytes.length ≤ 32) :
    (rowsPixels vx vy r bytes).Nodup := by
  induction bytes generalizing r with
  | nil => simp [rowsPixels]
  | cons b rest ih =>
    simp only [List.length_cons] at hlen
    rw [rowsPixels, List.nodup_append]
    refine ⟨nodup_rowPixels _ _ _ _, ih _ (by omega), ?_⟩
    rintro p hp q hq rfl
    obtain ⟨k, b', hk, hq⟩ := mem_rowsPixels.mp hq
    obtain ⟨c, _, _, h1⟩ := mem_rowPixels.mp hp
    obtain ⟨c', _, _, h2⟩ := mem_rowPixels.mp hq
    have hklt : k < rest.length := by
      by_contra hge
      rw [List.getElem?_eq_none (by omega)] at hk
      cases hk
    have := congrArg Fin.val (congrArg Prod.snd (h1.symm.trans h2))
    simp only [val_spriteRow] at this
    omega

/-- A pixel is flipped exactly when the sprite covers it. -/
theorem mem_spritePixels (m : Memory) (i n : Nat) (vx vy : Byte) (px : Fin 64) (py : Fin 32) :
    (px, py) ∈ rowsPixels vx vy 0 (m.readRun i n) ↔ spriteCovers m i vx.toNat vy.toNat n px py = true := by
  rw [mem_rowsPixels]
  simp only [spriteCovers, List.any_eq_true, List.mem_range, Bool.and_eq_true, beq_iff_eq]
  constructor
  · rintro ⟨k, b, hk, h⟩
    have hkn : k < n := by
      by_contra hge
      rw [List.getElem?_eq_none (by simp; omega)] at hk
      cases hk
    rw [Memory.getElem?_readRun m i n k hkn, Option.some.injEq] at hk
    subst hk
    obtain ⟨c, hc, hb, he⟩ := mem_rowPixels.mp h
    obtain ⟨rfl, rfl⟩ := Prod.mk.inj he
    exact ⟨k, hkn, c, hc, ⟨hb, rfl⟩, by rw [val_spriteRow, Nat.zero_add]⟩
  · rintro ⟨k, hk, c, hc, ⟨hb, hx⟩, hy⟩
    refine ⟨k, _, Memory.getElem?_readRun m i n k hk, mem_rowPixels.mpr ⟨c, hc, hb, ?_⟩⟩
    refine Prod.ext (Fin.ext ?_) (Fin.ext ?_)
    · rw [val_spriteColumn]; exact hx
    · rw [val_spriteRow, Nat.zero_add]; exact hy

/-- Everything drawing a sprite does to the display and to the collision flag. -/
theorem drawRows_spec (m : Memory) (i n : Nat) (hn : n < 16) (vx vy : Byte) (d : Display) :
    (∀ (px : Fin 64) (py : Fin 32), (drawRows vx vy 0 (m.readRun i n) (d, false)).1[px][py] =
      (d[px][py] ^^ spriteCovers m i vx.toNat vy.toNat n px py)) ∧
    ((drawRows vx vy 0 (m.readRun i n) (d, false)).2 = true ↔
      ∃ px py, spriteCovers m i vx.toNat vy.toNat n px py = true ∧ d[px][py] = true) := by
  rw [drawRows_eq_foldl]
  obtain ⟨h1, h2⟩ := foldl_flipAt (rowsPixels vx vy 0 (m.readRun i n))
    (nodup_rowsPixels _ _ _ _ (by simp; omega)) (d, false)
  constructor
  · intro px py
    rw [h1]
    congr 1
    rw [Bool.eq_iff_iff, decide_eq_true_iff, mem_spritePixels]
  · rw [h2]
    constructor
    · rintro (h | ⟨p, hp, h⟩)
      · cases h
      · exact ⟨p.1, p.2, (mem_spritePixels m i n vx vy p.1 p.2).mp hp, h⟩
    · rintro ⟨px, py, hc, h⟩
      exact .inr ⟨(px, py), (mem_spritePixels m i n vx vy px py).mpr hc, h⟩

end Sys2Proof.Machine
end

