-- ==== Sys2Proof/Laws/Exec.lean ====
section
/-! SUPPORT. What executing any instruction can do, said once over all constructors: it answers a fatal record on the
state before it, or a state that keeps the record, the latch and the parameters. -/

namespace Sys2Proof.Machine

/-- The error of a range check is never the load error. -/
theorem checkWritable_kind {p : Params} {base count : Nat} {c : Cause} (h : checkWritable p base count = some c) :
    c.kind ≠ .load := by
  unfold checkWritable checkRange at h
  split at h
  · rename_i h1; split at h1 <;> cases h1; cases h; exact nofun
  · split at h <;> cases h <;> exact nofun

theorem checkRange_kind {base count : Nat} {c : Cause} (h : checkRange base count = some c) : c.kind ≠ .load := by
  unfold checkRange at h
  split at h <;> cases h <;> exact nofun

theorem drawCheck_kind {i : Word} {n : Nat} {c : Cause} (h : drawCheck i n = some c) : c.kind ≠ .load := by
  unfold drawCheck at h
  split at h
  · cases h
  · exact checkRange_kind h

theorem fetchCheck_kind {p : Params} {pc : Word} {c : Cause} (h : fetchCheck p pc = some c) : c.kind ≠ .load := by
  unfold fetchCheck at h
  split at h
  · cases h; exact nofun
  · split at h <;> cases h <;> exact nofun

theorem State.push_some {s t : State} {w : Word} (h : s.push w = some t) :
    ∃ hs : s.sp.val < 16, t = { s with stack := s.stack.set s.sp.val w, sp := ⟨s.sp.val + 1, by omega⟩ } := by
  unfold State.push at h
  split at h
  · rename_i hs; cases h; exact ⟨hs, rfl⟩
  · cases h

theorem State.pop_some {s t : State} {w : Word} (h : s.pop = some (w, t)) :
    ∃ hs : 0 < s.sp.val, w = s.stack[s.sp.val - 1]'(by omega) ∧ t = { s with sp := ⟨s.sp.val - 1, by omega⟩ } := by
  unfold State.pop at h
  split at h
  · rename_i hs; cases h; exact ⟨hs, rfl, rfl⟩
  · cases h

/-- The inversion of `exec` (R137, R316): a fatal record, or no change of record, latch and parameters. -/
theorem exec_cases {i : Instr} {s t : State} (h : exec i s = .next t) :
    (∃ c : Cause, c.kind ≠ .load ∧ t = s.fatal c (some (encode i))) ∨
    (t.halt = s.halt ∧ t.key = s.key ∧ t.params = s.params) := by
  cases i <;> simp only [exec] at h
  case sys nnn => cases h; exact .inl ⟨_, by decide, rfl⟩
  case ret =>
    unfold execRet at h
    split at h
    · rename_i hp
      obtain ⟨_, _, rfl⟩ := State.pop_some hp
      cases h; exact .inr ⟨rfl, rfl, rfl⟩
    · cases h; exact .inl ⟨_, by decide, rfl⟩
  case call nnn =>
    unfold execCall at h
    split at h
    · rename_i hp
      obtain ⟨_, rfl⟩ := State.push_some hp
      cases h; exact .inr ⟨rfl, rfl, rfl⟩
    · cases h; exact .inl ⟨_, by decide, rfl⟩
  case draw x y n =>
    unfold execDraw at h
    split at h
    · rename_i hc; cases h; exact .inl ⟨_, drawCheck_kind hc, rfl⟩
    · cases h; exact .inr ⟨rfl, rfl, rfl⟩
  case ldB x =>
    unfold execLdB at h
    split at h
    · rename_i hc; cases h; exact .inl ⟨_, checkWritable_kind hc, rfl⟩
    · cases h; exact .inr ⟨rfl, rfl, rfl⟩
  case ldMemVx x =>
    unfold execLdMemVx at h
    split at h
    · rename_i hc; cases h; exact .inl ⟨_, checkWritable_kind hc, rfl⟩
    · cases h; exact .inr ⟨rfl, rfl, rfl⟩
  case ldVxMem x =>
    unfold execLdVxMem at h
    split at h
    · rename_i hc; cases h; exact .inl ⟨_, checkRange_kind hc, rfl⟩
    · cases h; exact .inr ⟨rfl, rfl, rfl⟩
  case ldVxK x =>
    unfold execLdVxK at h
    split at h <;> cases h <;> exact .inr ⟨rfl, rfl, rfl⟩
  all_goals
    simp only [execCls, execJp, execSeImm, execSneImm, execSeReg, execSneReg, execLdImm, execAddImm, execLdReg,
      execOrReg, execAndReg, execXorReg, execAddReg, execSubReg, execShr, execSubn, execShl, execLdI, execJpV0,
      execRnd, execSkp, execSknp, execLdVxDt, execLdDtVx, execLdStVx, execAddI, execLdF] at h
    cases h
    right
    simp

end Sys2Proof.Machine
end

