-- ==== Sys2Proof/Laws/PerInstr.lean ====
section
/-! SUPPORT. A statement about every instruction as syntax: the family `TableRow` says that the word of a well-formed
descriptor carries the mask and match of its row of 30_encoding.md R105 (spec/opcode_table.json), one lemma per
constructor. -/

namespace Sys2Proof

/-- The `mask` column of R105. -/
def rowMask : Instr → Word
  | .cls | .ret => 0xFFFF#16
  | .sys _ | .jp _ | .call _ | .ldI _ | .jpV0 _ => 0xF000#16
  | .seImm _ _ | .sneImm _ _ | .ldImm _ _ | .addImm _ _ | .rnd _ _ | .draw _ _ _ => 0xF000#16
  | .seReg _ _ | .sneReg _ _ | .ldReg _ _ | .orReg _ _ | .andReg _ _ | .xorReg _ _ => 0xF00F#16
  | .addReg _ _ | .subReg _ _ | .shr _ _ | .subn _ _ | .shl _ _ => 0xF00F#16
  | .skp _ | .sknp _ | .ldVxDt _ | .ldVxK _ | .ldDtVx _ | .ldStVx _ => 0xF0FF#16
  | .addI _ | .ldF _ | .ldB _ | .ldMemVx _ | .ldVxMem _ => 0xF0FF#16

/-- The `match` column of R105. -/
def rowMatch : Instr → Word
  | .cls => 0x00E0#16
  | .ret => 0x00EE#16
  | .sys _ => 0x0000#16
  | .jp _ => 0x1000#16
  | .call _ => 0x2000#16
  | .seImm _ _ => 0x3000#16
  | .sneImm _ _ => 0x4000#16
  | .seReg _ _ => 0x5000#16
  | .ldImm _ _ => 0x6000#16
  | .addImm _ _ => 0x7000#16
  | .ldReg _ _ => 0x8000#16
  | .orReg _ _ => 0x8001#16
  | .andReg _ _ => 0x8002#16
  | .xorReg _ _ => 0x8003#16
  | .addReg _ _ => 0x8004#16
  | .subReg _ _ => 0x8005#16
  | .shr _ _ => 0x8006#16
  | .subn _ _ => 0x8007#16
  | .shl _ _ => 0x800E#16
  | .sneReg _ _ => 0x9000#16
  | .ldI _ => 0xA000#16
  | .jpV0 _ => 0xB000#16
  | .rnd _ _ => 0xC000#16
  | .draw _ _ _ => 0xD000#16
  | .skp _ => 0xE09E#16
  | .sknp _ => 0xE0A1#16
  | .ldVxDt _ => 0xF007#16
  | .ldVxK _ => 0xF00A#16
  | .ldDtVx _ => 0xF015#16
  | .ldStVx _ => 0xF018#16
  | .addI _ => 0xF01E#16
  | .ldF _ => 0xF029#16
  | .ldB _ => 0xF033#16
  | .ldMemVx _ => 0xF055#16
  | .ldVxMem _ => 0xF065#16

/-- Masking the top nibble. -/
theorem and_topNibble (w : Word) : w &&& 0xF000#16 = (fieldN3 w).setWidth 16 <<< 12 := by
  ext i hi
  interval_cases i <;> simp [fieldN3]

/-- Masking the top and the low nibble. -/
theorem and_outerNibbles (w : Word) :
    w &&& 0xF00F#16 = (fieldN3 w).setWidth 16 <<< 12 ||| (fieldN w).setWidth 16 := by
  ext i hi
  interval_cases i <;> simp [fieldN3, fieldN]

/-- Masking the top nibble and the low byte. -/
theorem and_topNibble_lowByte (w : Word) :
    w &&& 0xF0FF#16 = (fieldN3 w).setWidth 16 <<< 12 ||| (fieldNN w).setWidth 16 := by
  ext i hi
  interval_cases i <;> simp [fieldN3, fieldNN]

/-- The word of a well-formed descriptor matches its row of R105. -/
def Laws.TableRow.Statement (i : Instr) : Prop :=
  i.wellFormed = true → encode i &&& rowMask i = rowMatch i

theorem Laws.TableRow.cls : Laws.TableRow.Statement .cls := fun _ => by decide
theorem Laws.TableRow.ret : Laws.TableRow.Statement .ret := fun _ => by decide
theorem Laws.TableRow.sys (nnn : Addr12) : Laws.TableRow.Statement (.sys nnn) := fun _ => by simp [encode, rowMask, rowMatch, and_topNibble]
theorem Laws.TableRow.jp (nnn : Addr12) : Laws.TableRow.Statement (.jp nnn) := fun _ => by simp [encode, rowMask, rowMatch, and_topNibble]
theorem Laws.TableRow.call (nnn : Addr12) : Laws.TableRow.Statement (.call nnn) := fun _ => by simp [encode, rowMask, rowMatch, and_topNibble]
theorem Laws.TableRow.seImm (x : Reg) (nn : Byte) : Laws.TableRow.Statement (.seImm x nn) := fun _ => by simp [encode, rowMask, rowMatch, and_topNibble]
theorem Laws.TableRow.sneImm (x : Reg) (nn : Byte) : Laws.TableRow.Statement (.sneImm x nn) := fun _ => by simp [encode, rowMask, rowMatch, and_topNibble]
theorem Laws.TableRow.seReg (x y : Reg) : Laws.TableRow.Statement (.seReg x y) := fun _ => by simp [encode, rowMask, rowMatch, and_outerNibbles]
theorem Laws.TableRow.ldImm (x : Reg) (nn : Byte) : Laws.TableRow.Statement (.ldImm x nn) := fun _ => by simp [encode, rowMask, rowMatch, and_topNibble]
theorem Laws.TableRow.addImm (x : Reg) (nn : Byte) : Laws.TableRow.Statement (.addImm x nn) := fun _ => by simp [encode, rowMask, rowMatch, and_topNibble]
theorem Laws.TableRow.ldReg (x y : Reg) : Laws.TableRow.Statement (.ldReg x y) := fun _ => by simp [encode, rowMask, rowMatch, and_outerNibbles]
theorem Laws.TableRow.orReg (x y : Reg) : Laws.TableRow.Statement (.orReg x y) := fun _ => by simp [encode, rowMask, rowMatch, and_outerNibbles]
theorem Laws.TableRow.andReg (x y : Reg) : Laws.TableRow.Statement (.andReg x y) := fun _ => by simp [encode, rowMask, rowMatch, and_outerNibbles]
theorem Laws.TableRow.xorReg (x y : Reg) : Laws.TableRow.Statement (.xorReg x y) := fun _ => by simp [encode, rowMask, rowMatch, and_outerNibbles]
theorem Laws.TableRow.addReg (x y : Reg) : Laws.TableRow.Statement (.addReg x y) := fun _ => by simp [encode, rowMask, rowMatch, and_outerNibbles]
theorem Laws.TableRow.subReg (x y : Reg) : Laws.TableRow.Statement (.subReg x y) := fun _ => by simp [encode, rowMask, rowMatch, and_outerNibbles]
theorem Laws.TableRow.shr (x y : Reg) : Laws.TableRow.Statement (.shr x y) := fun _ => by simp [encode, rowMask, rowMatch, and_outerNibbles]
theorem Laws.TableRow.subn (x y : Reg) : Laws.TableRow.Statement (.subn x y) := fun _ => by simp [encode, rowMask, rowMatch, and_outerNibbles]
theorem Laws.TableRow.shl (x y : Reg) : Laws.TableRow.Statement (.shl x y) := fun _ => by simp [encode, rowMask, rowMatch, and_outerNibbles]
theorem Laws.TableRow.sneReg (x y : Reg) : Laws.TableRow.Statement (.sneReg x y) := fun _ => by simp [encode, rowMask, rowMatch, and_outerNibbles]
theorem Laws.TableRow.ldI (nnn : Addr12) : Laws.TableRow.Statement (.ldI nnn) := fun _ => by simp [encode, rowMask, rowMatch, and_topNibble]
theorem Laws.TableRow.jpV0 (nnn : Addr12) : Laws.TableRow.Statement (.jpV0 nnn) := fun _ => by simp [encode, rowMask, rowMatch, and_topNibble]
theorem Laws.TableRow.rnd (x : Reg) (nn : Byte) : Laws.TableRow.Statement (.rnd x nn) := fun _ => by simp [encode, rowMask, rowMatch, and_topNibble]
theorem Laws.TableRow.draw (x y : Reg) (n : Fin 16) : Laws.TableRow.Statement (.draw x y n) := fun _ => by simp [encode, rowMask, rowMatch, and_topNibble]
theorem Laws.TableRow.skp (x : Reg) : Laws.TableRow.Statement (.skp x) := fun _ => by simp [encode, rowMask, rowMatch, and_topNibble_lowByte]
theorem Laws.TableRow.sknp (x : Reg) : Laws.TableRow.Statement (.sknp x) := fun _ => by simp [encode, rowMask, rowMatch, and_topNibble_lowByte]
theorem Laws.TableRow.ldVxDt (x : Reg) : Laws.TableRow.Statement (.ldVxDt x) := fun _ => by simp [encode, rowMask, rowMatch, and_topNibble_lowByte]
theorem Laws.TableRow.ldVxK (x : Reg) : Laws.TableRow.Statement (.ldVxK x) := fun _ => by simp [encode, rowMask, rowMatch, and_topNibble_lowByte]
theorem Laws.TableRow.ldDtVx (x : Reg) : Laws.TableRow.Statement (.ldDtVx x) := fun _ => by simp [encode, rowMask, rowMatch, and_topNibble_lowByte]
theorem Laws.TableRow.ldStVx (x : Reg) : Laws.TableRow.Statement (.ldStVx x) := fun _ => by simp [encode, rowMask, rowMatch, and_topNibble_lowByte]
theorem Laws.TableRow.addI (x : Reg) : Laws.TableRow.Statement (.addI x) := fun _ => by simp [encode, rowMask, rowMatch, and_topNibble_lowByte]
theorem Laws.TableRow.ldF (x : Reg) : Laws.TableRow.Statement (.ldF x) := fun _ => by simp [encode, rowMask, rowMatch, and_topNibble_lowByte]
theorem Laws.TableRow.ldB (x : Reg) : Laws.TableRow.Statement (.ldB x) := fun _ => by simp [encode, rowMask, rowMatch, and_topNibble_lowByte]
theorem Laws.TableRow.ldMemVx (x : Reg) : Laws.TableRow.Statement (.ldMemVx x) := fun _ => by simp [encode, rowMask, rowMatch, and_topNibble_lowByte]
theorem Laws.TableRow.ldVxMem (x : Reg) : Laws.TableRow.Statement (.ldVxMem x) := fun _ => by simp [encode, rowMask, rowMatch, and_topNibble_lowByte]

end Sys2Proof
end

