-- ==== Sys2Proof/Tests/Slice0.lean ====
section
/-! SUPPORT. The model's own tests: the WellFormed smoke, one written-out word per constructor (30_encoding.md R105),
and single steps whose expected results stand in spec/95_test_vectors.md (each test names its vector). -/

namespace Sys2Proof.Tests

open Sys2Proof Sys2Proof.Machine

/-! ## WellFormed -/

/-- R239: the word 00E0 is CLS, so no `SYS` descriptor carries its field. -/
theorem test_wf_refuses_sys_cls : (Instr.sys 0x0E0#12).wellFormed = false := by decide

/-- R239: the word 00EE is RET, so no `SYS` descriptor carries its field. -/
theorem test_wf_refuses_sys_ret : (Instr.sys 0x0EE#12).wellFormed = false := by decide

theorem test_wf_accepts_sys : (Instr.sys 0x123#12).wellFormed = true := by decide

/-! ## Decoding: words written out bit by bit from R105 -/

/-- What the decoder reads. -/
def reads (w : Word) : Option Instr :=
  match decode w with
  | .ok i => some i
  | .error _ => none

/-- The rejection a word gets. -/
def rejects (w : Word) : Option DecodeError :=
  match decode w with
  | .ok _ => none
  | .error e => some e

theorem test_decode_cls : reads 0b0000000011100000#16 = some .cls := by decide
theorem test_decode_ret : reads 0b0000000011101110#16 = some .ret := by decide
theorem test_decode_sys : reads 0b0000000100100011#16 = some (.sys 0x123#12) := by decide
theorem test_decode_jp : reads 0b0001001000110100#16 = some (.jp 0x234#12) := by decide
theorem test_decode_call : reads 0b0010001100000000#16 = some (.call 0x300#12) := by decide
theorem test_decode_se_imm : reads 0b0011000100010010#16 = some (.seImm 1 0x12#8) := by decide
theorem test_decode_sne_imm : reads 0b0100000100010010#16 = some (.sneImm 1 0x12#8) := by decide
theorem test_decode_se_reg : reads 0b0101000100100000#16 = some (.seReg 1 2) := by decide
theorem test_decode_ld_imm : reads 0b0110000000000101#16 = some (.ldImm 0 0x05#8) := by decide
theorem test_decode_add_imm : reads 0b0111000000000011#16 = some (.addImm 0 0x03#8) := by decide
theorem test_decode_ld_reg : reads 0b1000000100100000#16 = some (.ldReg 1 2) := by decide
theorem test_decode_or : reads 0b1000000100100001#16 = some (.orReg 1 2) := by decide
theorem test_decode_and : reads 0b1000000100100010#16 = some (.andReg 1 2) := by decide
theorem test_decode_xor : reads 0b1000000100100011#16 = some (.xorReg 1 2) := by decide
theorem test_decode_add_reg : reads 0b1000000100100100#16 = some (.addReg 1 2) := by decide
theorem test_decode_sub : reads 0b1000000100100101#16 = some (.subReg 1 2) := by decide
theorem test_decode_shr : reads 0b1000000100100110#16 = some (.shr 1 2) := by decide
theorem test_decode_subn : reads 0b1000000100100111#16 = some (.subn 1 2) := by decide
theorem test_decode_shl : reads 0b1000000100101110#16 = some (.shl 1 2) := by decide
theorem test_decode_sne_reg : reads 0b1001000100100000#16 = some (.sneReg 1 2) := by decide
theorem test_decode_ld_i : reads 0b1010001000001010#16 = some (.ldI 0x20A#12) := by decide
theorem test_decode_jp_v0 : reads 0b1011001100000000#16 = some (.jpV0 0x300#12) := by decide
theorem test_decode_rnd : reads 0b1100001100001111#16 = some (.rnd 3 0x0F#8) := by decide
theorem test_decode_draw : reads 0b1101000100100101#16 = some (.draw 1 2 5) := by decide
theorem test_decode_skp : reads 0b1110000110011110#16 = some (.skp 1) := by decide
theorem test_decode_sknp : reads 0b1110000110100001#16 = some (.sknp 1) := by decide
theorem test_decode_ld_vx_dt : reads 0b1111010000000111#16 = some (.ldVxDt 4) := by decide
theorem test_decode_ld_vx_k : reads 0b1111001000001010#16 = some (.ldVxK 2) := by decide
theorem test_decode_ld_dt_vx : reads 0b1111010000010101#16 = some (.ldDtVx 4) := by decide
theorem test_decode_ld_st_vx : reads 0b1111010000011000#16 = some (.ldStVx 4) := by decide
theorem test_decode_add_i : reads 0b1111001000011110#16 = some (.addI 2) := by decide
theorem test_decode_ld_f : reads 0b1111000000101001#16 = some (.ldF 0) := by decide
theorem test_decode_ld_b : reads 0b1111000000110011#16 = some (.ldB 0) := by decide
theorem test_decode_ld_mem_vx : reads 0b1111001001010101#16 = some (.ldMemVx 2) := by decide
theorem test_decode_ld_vx_mem : reads 0b1111001001100101#16 = some (.ldVxMem 2) := by decide

/-- V-X2 to V-X5: one word of each row of R107's table is rejected by its name. -/
theorem test_decode_rejects :
    [rejects 0x5121#16, rejects 0x8008#16, rejects 0x9011#16, rejects 0xE000#16, rejects 0xF000#16] =
      [some .family5, some .family8, some .family9, some .familyE, some .familyF] := by decide

/-- R100: an opcode is two bytes. -/
theorem test_decode_too_short : decodeBytes [0x60#8] = .error .tooShort := by decide

/-- R82: W1's bytes `60 05 70 03`, the first instruction and the rest. -/
theorem test_decode_bytes :
    decodeBytes [0x60#8, 0x05#8, 0x70#8, 0x03#8] = .ok (.ldImm 0 0x05#8, [0x70#8, 0x03#8]) := by decide

/-- R110, R111: the source's spelling. -/
theorem test_text_ld : (Instr.ldImm 0 0x05#8).text = "LD V0, 0x05" := by decide
theorem test_text_draw : (Instr.draw 1 2 5).text = "DRAW V1, V2, 5" := by decide

/-! ## Single steps -/

/-- The state after one step on an opcode, where the step answers one. -/
def after (s : State) (w : Nat) : Option State :=
  match step (s.withFetchWord 16 w) with
  | .next t => some t
  | _ => none

/-- Reset with some registers set. -/
def regs (l : List (Reg × Byte)) : State := l.foldl (fun s c => s.writeV c.1 c.2) State.reset

/-- Two registers and `PC` after a step. -/
def look (o : Option State) (x y : Reg) : Option (Byte × Byte × Word) := o.map (fun t => (t.v[x], t.v[y], t.pc))

/-- The fatal record after a step. -/
def fatalOf (o : Option State) : Option FatalRecord := o.bind (fun t => t.halt)

/-- V-A1. -/
theorem test_ld_imm : look (after State.reset 0x6A42) 10 15 = some (0x42, 0x00, 0x202) := by decide
/-- V-A2: no carry. -/
theorem test_add_imm_wraps : look (after (regs [(0, 0xFF), (15, 0x77)]) 0x7001) 0 15 = some (0x00, 0x77, 0x202) := by decide
/-- V-A4. -/
theorem test_ld_reg : look (after (regs [(2, 0x99)]) 0x8120) 1 2 = some (0x99, 0x99, 0x202) := by decide
/-- V-A5. -/
theorem test_or_keeps_vf : look (after (regs [(1, 0x0F), (2, 0xF0), (15, 0x55)]) 0x8121) 1 15 = some (0xFF, 0x55, 0x202) := by decide
/-- V-A6: `P_LOGIC_VF = zero`. -/
theorem test_or_zeroes_vf :
    look (after { regs [(1, 0x0F), (2, 0xF0), (15, 0x55)] with params := { defaultParams with logicVf := .zero } } 0x8121) 1 15
      = some (0xFF, 0x00, 0x202) := by decide
/-- V-A7. -/
theorem test_and : look (after (regs [(1, 0x3C), (2, 0x0F)]) 0x8122) 1 2 = some (0x0C, 0x0F, 0x202) := by decide
/-- V-A8. -/
theorem test_xor : look (after (regs [(1, 0x3C), (2, 0x0F)]) 0x8123) 1 2 = some (0x33, 0x0F, 0x202) := by decide
/-- V-A15: `y = F` reads the old `VF`. -/
theorem test_add_reg_old_vf : look (after (regs [(15, 0x01), (1, 0xFF)]) 0x81F4) 1 15 = some (0x00, 0x01, 0x202) := by decide
/-- V-A16: the flag is last. -/
theorem test_add_reg_flag_last : look (after (regs [(15, 0xFF), (1, 0x01)]) 0x8F14) 15 1 = some (0x01, 0x01, 0x202) := by decide
/-- V-A18: equal is no borrow. -/
theorem test_sub_equal : look (after (regs [(1, 0x20), (2, 0x20)]) 0x8125) 1 15 = some (0x00, 0x01, 0x202) := by decide
/-- V-A20. -/
theorem test_sub_borrow : look (after (regs [(1, 0x10), (2, 0x20)]) 0x8125) 1 15 = some (0xF0, 0x00, 0x202) := by decide
/-- V-A24. -/
theorem test_subn_borrow : look (after (regs [(1, 0x01), (2, 0x00)]) 0x8127) 1 15 = some (0xFF, 0x00, 0x202) := by decide
/-- V-A26. -/
theorem test_shr : look (after (regs [(1, 0x05)]) 0x8106) 1 15 = some (0x02, 0x01, 0x202) := by decide
/-- V-A28: `P_SHIFT_SRC = vy`. -/
theorem test_shr_vy :
    look (after { regs [(1, 0x00), (2, 0x03)] with params := { defaultParams with shiftSrc := .vy } } 0x8126) 1 15
      = some (0x01, 0x01, 0x202) := by decide
/-- V-A31. -/
theorem test_shl : look (after (regs [(1, 0x81)]) 0x810E) 1 15 = some (0x02, 0x01, 0x202) := by decide
/-- V-A32. -/
theorem test_shl_no_carry : look (after (regs [(1, 0x7F)]) 0x810E) 1 15 = some (0xFE, 0x00, 0x202) := by decide
/-- R180: one more byte is drawn, and the rest is as for any instruction. -/
theorem test_rnd : (after State.reset 0xC3FF).map (fun t => (t.draws, t.pc)) = some (1, 0x202) := by decide

/-- A state whose `I` is 0x300 with bytes there. -/
def sprite (bytes : List Byte) (l : List (Reg × Byte)) : State := { (regs l).store 0x300 bytes with i := 0x300 }

/-- V-D1 (one pixel of it). -/
theorem test_cls : (after { State.reset with disp := Display.setPixel blankDisplay 63 31 true } 0x00E0).map (·.disp)
    = some blankDisplay := by decide
/-- V-D2: the sprite wraps at the right edge. -/
theorem test_draw_wraps : (after (sprite [0xFF] [(1, 62), (2, 0)]) 0xD121).map
    (fun t => ((List.finRange 64).filter (fun px => t.disp[px][(0 : Fin 32)]), t.v[15]))
      = some ([0, 1, 2, 3, 4, 5, 62, 63], 0x00) := by decide
/-- V-D6: bounds, before anything is drawn. -/
theorem test_draw_bounds : fatalOf (after { State.reset with i := 0xFFE } 0xD123)
    = some ⟨.bounds, some 0xD123, 0x200, some 0x1000⟩ := by decide

/-- V-C6. -/
theorem test_ret : (after { State.reset with sp := 1, stack := State.reset.stack.set 0 0x204 } 0x00EE).map
    (fun t => (t.sp, t.pc)) = some (0, 0x204) := by decide
/-- V-C7. -/
theorem test_ret_underflow : fatalOf (after State.reset 0x00EE) = some ⟨.stackUnderflow, some 0x00EE, 0x200, none⟩ := by decide
/-- V-X6. -/
theorem test_sys : fatalOf (after State.reset 0x0123) = some ⟨.decode, some 0x0123, 0x200, none⟩ := by decide
/-- V-C1. -/
theorem test_jp : (after State.reset 0x1234).map (·.pc) = some 0x234 := by decide
/-- V-C4. -/
theorem test_call : (after { State.reset with sp := 15 } 0x2300).map (fun t => (t.stack[15], t.sp, t.pc))
    = some (0x202, 16, 0x300) := by decide
/-- V-C5. -/
theorem test_call_overflow : fatalOf (after { State.reset with sp := 16 } 0x2300)
    = some ⟨.stackOverflow, some 0x2300, 0x200, none⟩ := by decide
/-- V-C9: the target is checked only at the next fetch. -/
theorem test_jp_v0 : (after (regs [(0, 0xFF)]) 0xBF01).map (fun t => (t.pc, t.halt)) = some (0x1000, none) := by decide
/-- V-C10: `P_JUMP_OFFSET = vx`. -/
theorem test_jp_vx : (after { regs [(0, 0x00), (2, 0x04)] with params := { defaultParams with jumpOffset := .vx } } 0xB230).map
    (·.pc) = some 0x234 := by decide
/-- V-C11, V-C12. -/
theorem test_se_imm : ((after (regs [(1, 0x12)]) 0x3112).map (·.pc), (after (regs [(1, 0x13)]) 0x3112).map (·.pc))
    = (some 0x204, some 0x202) := by decide
/-- V-C13, V-C14. -/
theorem test_sne_imm : ((after (regs [(1, 0x12)]) 0x4112).map (·.pc), (after (regs [(1, 0x13)]) 0x4112).map (·.pc))
    = (some 0x202, some 0x204) := by decide
/-- V-C15. -/
theorem test_se_reg : (after (regs [(1, 0x07), (2, 0x07)]) 0x5120).map (·.pc) = some 0x204 := by decide
/-- V-C16. -/
theorem test_sne_reg : (after (regs [(1, 0x07), (2, 0x08)]) 0x9120).map (·.pc) = some 0x204 := by decide

/-- V-B8: `P_RESERVED_WRITE = fault`. -/
theorem test_ld_b_reserved : fatalOf (after { State.reset with i := 0x100 } 0xF033)
    = some ⟨.reservedWrite, some 0xF033, 0x200, some 0x100⟩ := by decide
/-- V-B1. -/
theorem test_ld_b : (after { regs [(0, 0xFE)] with i := 0x300 } 0xF033).map (fun t => (t.mem.readRun 0x300 3, t.i))
    = some ([0x02, 0x05, 0x04], 0x300) := by decide
/-- V-B13: `P_LDST_I = increment`. -/
theorem test_ld_mem_vx : (after { regs [(0, 1), (1, 2), (2, 3)] with
    i := 0x300, params := { defaultParams with ldstI := .increment } } 0xF255).map (fun t => (t.mem.readRun 0x300 4, t.i))
      = some ([1, 2, 3, 0], 0x303) := by decide
/-- V-B10. -/
theorem test_ld_mem_vx_reserved : fatalOf (after { State.reset with i := 0x1FF } 0xF155)
    = some ⟨.reservedWrite, some 0xF155, 0x200, some 0x1FF⟩ := by decide
/-- V-B16: font reads are allowed. -/
theorem test_ld_vx_mem_font : (after State.reset 0xF465).map (fun t => t.v.toList.take 6)
    = some [0xF0, 0x90, 0x90, 0x90, 0xF0, 0x00] := by decide
/-- V-B18. -/
theorem test_ld_vx_mem_bounds : fatalOf (after { State.reset with i := 0xFF1 } 0xFF65)
    = some ⟨.bounds, some 0xFF65, 0x200, some 0x1000⟩ := by decide
/-- V-B20. -/
theorem test_ld_i : (after State.reset 0xA123).map (·.i) = some 0x123 := by decide
/-- V-B23: modulo 65536, `VF` unchanged. -/
theorem test_add_i_wraps : (after { regs [(1, 0x01)] with i := 0xFFFF } 0xF11E).map (fun t => (t.i, t.v[15])) = some (0, 0) := by decide
/-- V-B25: the low nibble. -/
theorem test_ld_f : (after (regs [(0, 0x1A)]) 0xF029).map (·.i) = some 0x032 := by decide

/-- V-K3: the low nibble names the key. -/
theorem test_skp : (after ((regs [(1, 0x15)]).setKey 5 true) 0xE19E).map (·.pc) = some 0x204 := by decide
/-- V-K4. -/
theorem test_sknp : (after ((regs [(1, 0x05)]).setKey 5 true) 0xE1A1).map (·.pc) = some 0x202 := by decide
/-- V-K6: the lowest held key, at once. -/
theorem test_ld_vx_k : (after ((State.reset.setKey 7 true).setKey 3 true) 0xF20A).map
    (fun t => (t.v[2], t.pc, t.status)) = some (0x03, 0x202, .ok) := by decide
/-- V-K7: no key, blocked at the instruction. -/
theorem test_ld_vx_k_blocks : (after State.reset 0xF20A).map (fun t => (t.await, t.pc, t.status))
    = some (some 2, 0x200, .blocked) := by decide
/-- Waiting in `V2` under `P_KEY_WAIT = edge`, key 5 held or not at the previous sample. -/
def edgeWait (was : Bool) : State :=
  { State.reset with
    await := some 2, waitPrev := State.reset.waitPrev.set 5 was, params := { defaultParams with keyWait := .edge } }

/-- V-K14: an edge completes the wait. -/
theorem test_poll_edge : (((edgeWait false).setKey 5 true).pollKey 2).v[2] = 0x05#8 := by decide
/-- V-K12: a key held since the last sample does not. -/
theorem test_poll_edge_held : (((edgeWait true).setKey 5 true).pollKey 2).await = some 2 := by decide
/-- V-K15. -/
theorem test_ld_vx_dt : (after { State.reset with dt := 0x3C } 0xF407).map (·.v[4]) = some 0x3C := by decide
/-- V-K16. -/
theorem test_ld_dt_vx : (after (regs [(4, 0x3C)]) 0xF415).map (·.dt) = some 0x3C := by decide
/-- V-K17. -/
theorem test_ld_st_vx : (after (regs [(4, 0x02)]) 0xF418).map (fun t => (t.st, t.tone)) = some (0x02, true) := by decide

/-! ## The cycle and the host's transactions -/

/-- V-X9: bounds before alignment. -/
theorem test_fetch_bounds : fatalOf (after { State.reset with pc := 0xFFF } 0x1200)
    = some ⟨.bounds, none, 0xFFF, some 0xFFF⟩ := by decide
/-- V-X10, second step. -/
theorem test_fetch_odd : fatalOf (after { State.reset with pc := 0x201 } 0x1200)
    = some ⟨.misalignedFetch, none, 0x201, some 0x201⟩ := by decide
/-- V-X1: the first fetch of an empty ROM. -/
theorem test_empty_rom : fatalOf (match step State.reset with | .next t => some t | _ => none)
    = some ⟨.decode, some 0x0000, 0x200, none⟩ := by decide
/-- W2. -/
theorem test_tick : (({ State.reset with dt := 5 }).tick.dt, State.reset.tick.dt) = (4#8, 0#8) := by decide
/-- V-X18: glyphs 0 and F, and the byte after the font. -/
theorem test_reset_font : (State.reset.mem.readRun 0x000 5, State.reset.mem.readRun 0x04B 6)
    = ([0xF0, 0x90, 0x90, 0x90, 0xF0], [0xF0, 0x80, 0xF0, 0x80, 0x80, 0x00]) := by decide

/-! ## Witnesses: for each obligation with hypotheses, concrete values that meet all of them, at the boundaries -/

/-- A state with canonical memory whose `PC` is the last that may be fetched from. -/
def lastPc : State := { State.reset with pc := 0xFFE }

/-- A halted state: a step from reset with an empty ROM ends in the decode error. -/
def halted : State := State.reset.fatal { kind := .decode, info := none } (some 0x0000#16)

/-- A state under other parameters. -/
def under (p : Params) : State := { State.reset with params := p }

/-- `DecodeOfEncodeIsInstruction`: the smallest and largest `SYS` fields next to `CLS` and `RET`. -/
theorem witness_well_formed : (Instr.sys 0x0DF#12).wellFormed = true ∧ (Instr.sys 0x0EF#12).wellFormed = true := by decide

/-- `EncodeOfDecodeIsWord`. -/
theorem witness_decodes : decode 0x00EF#16 = .ok (.sys 0x0EF#12) ∧ decode 0xFF65#16 = .ok (.ldVxMem 15) := ⟨rfl, rfl⟩

/-- `StepRunsDecodedInstruction`, at the last `PC` that may be fetched from. -/
theorem witness_step_runs : let s := lastPc.withFetchWord 16 0x6005
    s.halt = none ∧ s.await = none ∧ s.pc.toNat + 1 ≤ 0xFFF ∧ (s.pc.toNat % 2 = 0 ∨ s.params.oddPc = .allow) ∧
    decode (BitVec.ofNat 16 (256 * (s.mem.read s.pc.toNat).toNat + (s.mem.read (s.pc.toNat + 1)).toNat)) = .ok (.ldImm 0 0x05#8) :=
  ⟨rfl, rfl, by decide, by decide, rfl⟩

/-- The same at an odd `PC` under `P_ODD_PC = allow`. -/
theorem witness_step_runs_odd : fetchable { under { defaultParams with oddPc := .allow } with pc := 0x201 } := by
  unfold fetchable; decide

/-- `PlacedInstructionRunsNext`. -/
theorem witness_placed : lastPc.MemOk ∧ fetchable lastPc ∧ (Instr.jp 0xFFF#12).wellFormed = true :=
  ⟨rfl, by unfold fetchable; decide, rfl⟩

/-- `HaltedIsAbsorbing`. -/
theorem witness_halted : halted.halt = some ⟨.decode, some 0x0000#16, 0x200#16, none⟩ := rfl

/-- `WaitingStepPollsLatch`, no key, under `level`. -/
theorem witness_poll_none : let s := { State.reset with await := some 2 }
    s.halt = none ∧ s.await = some 2 ∧
      ∀ k : Key, s.key[k] = false ∨ (s.params.keyWait = .edge ∧ s.waitPrev[k] = true) := by decide

/-- The same under `edge`, a key held since the last sample. -/
theorem witness_poll_held : let s := (edgeWait true).setKey 5 true
    s.halt = none ∧ s.await = some 2 ∧ s.key[(5 : Key)] = true ∧
      ∀ k : Key, s.key[k] = false ∨ (s.params.keyWait = .edge ∧ s.waitPrev[k] = true) := by decide

/-- Key F, the only one, under `level`. -/
theorem witness_poll_level : let s := { State.reset.setKey 15 true with await := some 15 }
    s.halt = none ∧ s.await = some 15 ∧ s.key[(15 : Key)] = true ∧ (s.params.keyWait = .edge → s.waitPrev[(15 : Key)] = false) ∧
      ∀ j : Key, j < 15 → s.key[j] = false ∨ (s.params.keyWait = .edge ∧ s.waitPrev[j] = true) := by decide

/-- Under `edge`, key 7 freshly pressed, key 5 held since the last sample. -/
theorem witness_poll_edge : let s := ((edgeWait true).setKey 5 true).setKey 7 true
    s.halt = none ∧ s.await = some 2 ∧ s.key[(7 : Key)] = true ∧ (s.params.keyWait = .edge → s.waitPrev[(7 : Key)] = false) ∧
      ∀ j : Key, j < 7 → s.key[j] = false ∨ (s.params.keyWait = .edge ∧ s.waitPrev[j] = true) := by decide

/-- Reset with another `PC`. -/
def atPc (pc : Word) : State := { State.reset with pc := pc }

/-- Reset with another `I`. -/
def atI (i : Word) : State := { State.reset with i := i }

/-- `FetchErrorsInOrder`: each clause, where the ranges meet. -/
theorem witness_fetch_errors :
    (running (atPc 0xFFF) ∧ (atPc 0xFFF).pc.toNat ≥ 0xFFF) ∧
    (running (atPc 0xFFD) ∧ (atPc 0xFFD).pc.toNat < 0xFFF ∧ (atPc 0xFFD).pc.toNat % 2 = 1 ∧
      (atPc 0xFFD).params.oddPc = .fault) ∧
    (running (lastPc.withFetchWord 16 0x8008) ∧ fetchable (lastPc.withFetchWord 16 0x8008) ∧
      ∃ e, decode (opcodeAt (lastPc.withFetchWord 16 0x8008)) = .error e) :=
  ⟨⟨⟨rfl, rfl⟩, by decide⟩, ⟨⟨rfl, rfl⟩, by decide⟩, ⟨rfl, rfl⟩, by unfold fetchable; decide, _, rfl⟩

/-- `FatalStepRollsBack`, a fetch error and an instruction's own. -/
theorem witness_fatal_step :
    (∃ t r, step { State.reset with pc := 0xFFF } = .next t ∧ t.halt = some r) ∧
    (∃ t r, step (State.reset.withFetchWord 16 0x00EE) = .next t ∧ t.halt = some r) := ⟨⟨_, _, rfl, rfl⟩, _, _, rfl, rfl⟩

/-- `NormalInstructionsAdvanceByTwo`, both clauses. -/
theorem witness_normal :
    (∃ t, exec (.ldB 0) { State.reset with i := 0x200 } = .next t ∧ t.halt = none ∧ steersPc (.ldB 0) = false) ∧
    (∃ t, exec (.skp 15) State.reset = .next t ∧ t.halt = none) := ⟨⟨_, rfl, rfl, rfl⟩, _, rfl, rfl⟩

/-- `TimersChangeOnlyByTheirInstructions` and the three rules like it: a step answers. -/
theorem witness_step_answers : ∃ t, step (State.reset.withFetchWord 16 0xF015) = .next t := ⟨_, rfl⟩

/-- `RegisterWritesFollowTheTable`. -/
theorem witness_not_written : ¬ mayWrite State.reset.params (.orReg 1 2) 15 ∧
    ∃ t, exec (.orReg 1 2) State.reset = .next t := ⟨by simp [mayWrite, State.reset, defaultParams], _, rfl⟩

/-- Operands of a shift under `P_SHIFT_SRC = vy`. -/
def shiftVy : State := (under { defaultParams with shiftSrc := .vy }).writeV 2 0x81

/-- `ShiftsSetBitShiftedOut`, either source: `V1` shifted, or `V2` into `V1`. -/
theorem witness_shift_source :
    (0x05#8 = if (regs [(1, 0x05)]).params.shiftSrc = .vx then (regs [(1, 0x05)]).v[(1 : Reg)]
      else (regs [(1, 0x05)]).v[(2 : Reg)]) ∧
    (0x81#8 = if shiftVy.params.shiftSrc = .vx then shiftVy.v[(1 : Reg)] else shiftVy.v[(2 : Reg)]) := by decide

/-- `FlagOrderMattersOnlyAtVF`. -/
theorem witness_flag_order : (Instr.addReg 15 1 = .addReg 15 1) ∧ (Instr.shl 0 1 = .shl 0 1) := ⟨rfl, rfl⟩

/-- `DrawXorsTheSprite`: the last byte read is 0xFFF; a sprite of no rows anywhere. -/
theorem witness_draw : spriteInMemory (atI 0xFF1) 15 ∧ spriteInMemory (atI 0xFFFF) 0 := by
  unfold spriteInMemory; decide

/-- `DrawBeyondMemoryIsFatal`: the first byte beyond, and `I` beyond itself. -/
theorem witness_draw_beyond : ((15 : Fin 16).val ≠ 0 ∧ (atI 0xFF2).i.toNat + (15 : Fin 16).val > 0x1000) ∧
    ((1 : Fin 16).val ≠ 0 ∧ (atI 0x1000).i.toNat + (1 : Fin 16).val > 0x1000) := by decide

/-- `DrawingTwiceRestoresTheDisplay`: the state right after the first draw. -/
theorem witness_draw_twice : ∃ t, spriteInMemory (sprite [0xFF] [(1, 62)]) 1 ∧
    exec (.draw 1 2 1) (sprite [0xFF] [(1, 62)]) = .next t ∧ t.disp = t.disp ∧ t.i = (sprite [0xFF] [(1, 62)]).i ∧
    t.v[(1 : Reg)] = (sprite [0xFF] [(1, 62)]).v[(1 : Reg)] ∧ t.v[(2 : Reg)] = (sprite [0xFF] [(1, 62)]).v[(2 : Reg)] ∧
    ∀ a, t.mem.read a = (sprite [0xFF] [(1, 62)]).mem.read a :=
  ⟨_, by unfold spriteInMemory; decide, rfl, rfl, rfl, rfl, rfl, fun _ => rfl⟩

/-- `CallPushesReturnAddress` and `ReturnPopsReturnAddress`: the depths where their clauses meet. -/
theorem witness_stack_depths :
    (({ State.reset with sp := 15 } : State).sp.val < 16) ∧ (({ State.reset with sp := 16 } : State).sp.val = 16) ∧
    (0 < ({ State.reset with sp := 1 } : State).sp.val) ∧ State.reset.sp.val = 0 := by decide

/-- `CallThenReturnRoundTrip`: the return right after the call. -/
theorem witness_call_return : ∃ t, State.reset.sp.val < 16 ∧ exec (.call 0x300#12) State.reset = .next t ∧ t.sp = t.sp ∧
    ∀ j : Fin 16, j.val < t.sp.val → t.stack[j] = t.stack[j] := ⟨_, by decide, rfl, rfl, fun _ _ => rfl⟩

/-- `KeySkipsTestTheNamedKey`. -/
theorem witness_key_number : (15 : Key).val = ((regs [(1, 0xFF)]).v[(1 : Reg)]).toNat % 16 := by decide

/-- `KeyWaitLoadsOrBlocks`: two keys held, none held, and `edge`. -/
theorem witness_key_wait :
    (State.reset.params.keyWait = .level ∧ ((State.reset.setKey 7 true).setKey 3 true).key[(3 : Key)] = true ∧
      ∀ j : Key, j < 3 → ((State.reset.setKey 7 true).setKey 3 true).key[j] = false) ∧
    (State.reset.params.keyWait = .level ∧ ∀ k : Key, State.reset.key[k] = false) ∧
    (edgeWait true).params.keyWait = .edge := by decide

/-- `DecimalStoreWritesThreeDigits`: the lowest and highest places, and the reserved area under `allow`. -/
theorem witness_decimal_store : ((atI 0xFFD).MemOk ∧ storeAllowed (atI 0xFFD) 3) ∧
    ((atI 0x200).MemOk ∧ storeAllowed (atI 0x200) 3) ∧
    ((under { defaultParams with reservedWrite := .allow }).MemOk ∧
      storeAllowed (under { defaultParams with reservedWrite := .allow }) 3) := by
  unfold State.MemOk storeAllowed; decide

/-- `BlockStoreWritesRegisters`: one register at the last address, sixteen up to it. -/
theorem witness_block_store : ((atI 0xFFF).MemOk ∧ storeAllowed (atI 0xFFF) ((0 : Reg).val + 1)) ∧
    ((atI 0xFF0).MemOk ∧ storeAllowed (atI 0xFF0) ((15 : Reg).val + 1)) := by
  unfold State.MemOk storeAllowed; decide

/-- `BlockLoadReadsRegisters`: from the first byte of the font, and up to the last address. -/
theorem witness_block_load : State.reset.i.toNat + (15 : Reg).val + 1 ≤ 0x1000 ∧
    (atI 0xFF0).i.toNat + (15 : Reg).val + 1 ≤ 0x1000 := by decide

/-- `BadMemoryAccessIsFatal`: each clause at its boundary. -/
theorem witness_bad_access : (atI 0xFFE).i.toNat + 3 > 0x1000 ∧
    ((atI 0x1FF).i.toNat < 0x200 ∧ (atI 0x1FF).params.reservedWrite = .fault) ∧
    (atI 0xFFF).i.toNat + (1 : Reg).val + 1 > 0x1000 := by decide

/-- `StoredWordIsFetchedNext`. -/
theorem witness_stored_word : ∃ t, (atI 0xFFE).MemOk ∧ storeAllowed (atI 0xFFE) ((1 : Reg).val + 1) ∧
    1 ≤ (1 : Reg).val ∧ exec (.ldMemVx 1) (atI 0xFFE) = .next t :=
  ⟨_, rfl, by unfold storeAllowed; decide, by decide, rfl⟩

/-- `TickDecrementsTimers`: running and halted. -/
theorem witness_tick : State.reset.halt = none ∧ halted.halt ≠ none := by decide

/-- `ResetBuildsAFreshMachine` and `RomSizeIsChecked`: the longest ROM that fits, one byte more, and none. -/
theorem witness_rom : (List.replicate 3584 0xFF#8).length ≤ 3584 ∧ (List.replicate 3585 0xFF#8).length > 3584 ∧
    (List.replicate 3584 0xFF#8).length = 3584 ∧
    ([] : List Byte).length ≤ 3584 := by
  exact ⟨by rw [List.length_replicate], by rw [List.length_replicate]; decide, List.length_replicate, Nat.zero_le _⟩

/-- The invariants, in a waiting state: `StepKeeps…` of all five, and `EveryScheduleKeepsTheInvariants`. -/
theorem witness_invariants : let s := { State.reset.withFetchWord 16 0xF20A with await := some 2 }
    s.Inv ∧ ∃ t, step s = .next t :=
  ⟨⟨rfl, fun x h => by cases h; exact ⟨rfl, ⟨by decide, by decide⟩, rfl⟩, nofun, ⟨by decide, fun _ h => absurd h (Nat.not_lt_zero _)⟩,
    fun _ a h => by
      have : a ≠ 0x200 ∧ a ≠ 0x201 := by omega
      change Memory.read [(0x200, 0xF2#8), (0x201, 0x0A#8)] a = _
      simp only [Memory.read, this, if_false]; rfl⟩, _, rfl⟩

/-- The same, halted: the record is precise. -/
theorem witness_halted_invariant : halted.HaltOk ∧ ∃ t, step halted = .next t :=
  ⟨fun r h => by cases h; exact ⟨rfl, by decide, rfl⟩, _, rfl⟩

/-- `EveryScheduleKeepsTheInvariants`: a schedule with every transaction. -/
theorem witness_schedule : ∃ t, runSchedule [.key 2 true, .tick, .step, .reset [0x60#8, 0x05#8], .step] State.reset = .next t :=
  ⟨_, rfl⟩

/-- `UnreadStateDoesNotShow`: all three differences at once. -/
theorem witness_unread : SameButUnread State.reset
    { State.reset with st := 9, stack := State.reset.stack.set 0 0x204, waitPrev := State.reset.waitPrev.set 1 true } ∧
    ∃ t, step State.reset = .next t :=
  ⟨⟨rfl, fun _ h => absurd h (Nat.not_lt_zero _), fun h => by cases h⟩, _, rfl⟩

end Sys2Proof.Tests
end

/-! # Proofs about the state (10_state.md): where a step may wait, what it keeps, what no step reads -/

namespace Sys2Proof.Machine

/-! ## `STEP`, one rule per way its front can end -/

section StepRules
variable {s : State}

theorem step_of_halted {r : FatalRecord} (hh : s.halt = some r) : step s = .next s := by
  simp [step, State.front, hh]

theorem step_of_waiting {x : Reg} (hh : s.halt = none) (ha : s.await = some x) :
    step s = .next (s.pollKey x) := by
  simp [step, State.front, hh, ha]

theorem step_of_fetchCheck {c : Cause} (hr : running s) (hc : fetchCheck s.params s.pc = some c) :
    step s = .next (s.fatal c none) := by
  obtain ⟨hh, ha⟩ := hr
  simp [step, State.front, hh, ha, hc]

theorem step_of_decode_error {e : DecodeError} (hr : running s) (hf : fetchable s)
    (hd : decode (opcodeAt s) = .error e) :
    step s = .next (s.fatal { kind := .decode, info := none } (some (opcodeAt s))) := by
  obtain ⟨hh, ha⟩ := hr
  simp [step, State.front, hh, ha, (fetchCheck_none_iff s).mpr hf, fetchWord_eq, hd]

theorem step_of_executes {i : Instr} (h : executes s i) : step s = exec i s := by
  obtain ⟨⟨hh, ha⟩, hf, hd⟩ := h
  simp [step, State.front, hh, ha, (fetchCheck_none_iff s).mpr hf, fetchWord_eq, hd]

end StepRules

/-! ## Decoding to the key wait -/

/-- Only the words of `LD Vx, K` decode to it: the other families answer other descriptors. -/
theorem encode_of_decode_ldVxK {w : Word} {x : Reg} (h : decode w = .ok (.ldVxK x)) :
    encode (.ldVxK x) = w := by
  unfold decode at h
  split at h
  case h_16 => -- family F, the decoder's last row
    have hn : fieldN3 w = 0xF#4 := by
      generalize fieldN3 w = n at *
      simp only [imp_false, ← BitVec.toNat_inj, BitVec.toNat_ofNat] at *
      omega
    unfold decodeFamilyF at h
    split at h
    case h_2 hnn => cases h; rw [encode, ← hn, ← hnn, encodeXNN_fields]
    all_goals cases h
  case h_1 => unfold decodeFamily0 at h; split_ifs at h <;> cases h
  case h_6 | h_10 => split at h <;> cases h
  case h_9 => unfold decodeFamily8 at h; split at h <;> cases h
  case h_15 => unfold decodeFamilyE at h; split at h <;> cases h
  all_goals cases h

/-! ## What executing an instruction does to the call stack and to the wait -/

/-- The instructions that push or pop, or that may begin a wait. -/
def movesStackOrWait : Instr → Bool
  | .call _ | .ret | .ldVxK _ => true
  | _ => false

/-- What every other instruction keeps, also where it ends in a fatal record. -/
theorem exec_keeps_stack_and_wait {i : Instr} {s t : State} (hi : movesStackOrWait i = false)
    (h : exec i s = .next t) :
    (t.sp = s.sp ∧ t.stack = s.stack) ∧ t.await = s.await := by
  cases i <;> simp only [exec] at h
  case call | ret | ldVxK => cases hi
  case sys => cases h; exact ⟨⟨rfl, rfl⟩, rfl⟩
  case draw | ldB | ldMemVx | ldVxMem =>
    simp only [execDraw, execLdB, execLdMemVx, execLdVxMem] at h
    split at h <;> cases h <;> exact ⟨⟨rfl, rfl⟩, rfl⟩
  all_goals
    simp only [execCls, execJp, execSeImm, execSneImm, execSeReg, execSneReg, execLdImm, execAddImm, execLdReg,
      execOrReg, execAndReg, execXorReg, execAddReg, execSubReg, execShr, execSubn, execShl, execLdI, execJpV0,
      execRnd, execSkp, execSknp, execLdVxDt, execLdDtVx, execLdStVx, execAddI, execLdF] at h
    cases h
    simp

theorem exec_call_await {nnn : Addr12} {s t : State} (h : exec (.call nnn) s = .next t) : t.await = s.await := by
  simp only [exec, execCall] at h
  split at h
  case h_1 hp => obtain ⟨_, rfl⟩ := State.push_some hp; cases h; rfl
  case h_2 => cases h; rfl

theorem exec_ret_await {s t : State} (h : exec .ret s = .next t) : t.await = s.await := by
  simp only [exec, execRet] at h
  split at h
  case h_1 hp => obtain ⟨_, _, rfl⟩ := State.pop_some hp; cases h; rfl
  case h_2 => cases h; rfl

/-- Everything the key wait can do: load a held key, or begin to wait (R253). -/
theorem exec_ldVxK_cases {x : Reg} {s t : State} (h : exec (.ldVxK x) s = .next t) :
    (∃ k, t = (s.writeV x (keyByte k)).advance) ∨ ∃ prev, t = { s with await := some x, waitPrev := prev } := by
  simp only [exec, execLdVxK] at h
  split at h <;> cases h
  case h_1 k _ _ => exact .inl ⟨k, rfl⟩
  case h_2 => exact .inr ⟨s.waitPrev, rfl⟩
  case h_3 => exact .inr ⟨s.key, rfl⟩

/-- Only `LD Vx, K` begins a wait, and then it changes nothing else but the previous sample. -/
theorem exec_await_cases {i : Instr} {s t : State} (h : exec i s = .next t) :
    t.await = s.await ∨ ∃ x prev, i = .ldVxK x ∧ t = { s with await := some x, waitPrev := prev } := by
  cases i
  case ldVxK x =>
    obtain ⟨k, rfl⟩ | ⟨prev, rfl⟩ := exec_ldVxK_cases h
    · exact .inl rfl
    · exact .inr ⟨x, prev, rfl, rfl⟩
  case call => exact .inl (exec_call_await h)
  case ret => exact .inl (exec_ret_await h)
  all_goals exact .inl (exec_keeps_stack_and_wait rfl h).2

theorem exec_stack_cases {i : Instr} {s t : State} (h : exec i s = .next t) :
    (t.sp = s.sp ∧ t.stack = s.stack) ∨ (∃ nnn, i = .call nnn) ∨ i = .ret := by
  cases i
  case call nnn => exact .inr (.inl ⟨nnn, rfl⟩)
  case ret => exact .inr (.inr rfl)
  case ldVxK => obtain ⟨k, rfl⟩ | ⟨prev, rfl⟩ := exec_ldVxK_cases h <;> exact .inl ⟨rfl, rfl⟩
  all_goals exact .inl (exec_keeps_stack_and_wait rfl h).1

/-! ## `CALL` and `RET` on each side of their check -/

section CallStack
variable {s : State}

theorem execCall_of_lt (nnn : Addr12) (hs : s.sp.val < 16) :
    execCall nnn s = .next { s with stack := s.stack.set s.sp.val (s.pc + 2#16), sp := ⟨s.sp.val + 1, by omega⟩,
                                    pc := zextAddr nnn } := by
  rw [execCall, State.push_of_lt s _ hs]; rfl

theorem execCall_of_full (nnn : Addr12) (hs : s.sp.val = 16) :
    execCall nnn s = raise s (.call nnn) { kind := .stackOverflow, info := none } := by
  rw [execCall, State.push_of_full s _ hs]

theorem execRet_of_pos (hs : 0 < s.sp.val) :
    execRet s = .next { s with sp := ⟨s.sp.val - 1, by omega⟩, pc := s.stack[s.sp.val - 1]'(by omega) } := by
  rw [execRet, State.pop_of_pos s hs]; rfl

theorem execRet_of_empty (hs : s.sp.val = 0) :
    execRet s = raise s .ret { kind := .stackUnderflow, info := none } := by
  rw [execRet, State.pop_of_empty s hs]

end CallStack

/-! ## The wait stands at its instruction (R42, R254) -/

theorem State.waitOk_of_await_none {s : State} (ha : s.await = none) : s.WaitOk := by
  intro x hx
  rw [ha] at hx
  cases hx

/-- A poll ends the wait, or changes at most the previous sample, of which `WaitOk` does not speak. -/
theorem State.waitOk_pollKey {s : State} (hs : s.WaitOk) (x : Reg) : (s.pollKey x).WaitOk := by
  rcases s.pollKey_cases x with ⟨k, -, hp⟩ | ⟨-, -, hp⟩ | ⟨-, -, hp⟩ <;> rw [hp]
  · exact State.waitOk_of_await_none rfl
  · exact hs
  · exact hs

/-- An instruction that is executed leaves the engine not waiting, unless it is the `LD Vx, K` fetched at `PC`. -/
theorem waitOk_exec {i : Instr} {s t : State} (hi : executes s i) (h : exec i s = .next t) : t.WaitOk := by
  obtain ⟨⟨hh, ha⟩, hf, hd⟩ := hi
  obtain hk | ⟨x, prev, rfl, rfl⟩ := exec_await_cases h
  · exact State.waitOk_of_await_none (hk.trans ha)
  · intro y hy
    cases hy
    exact ⟨hh, hf, (encode_of_decode_ldVxK hd).symm⟩

/-- Settles O52: a wait begins only by executing `LD Vx, K`, and a poll that does not end it leaves `PC` and memory. -/
theorem stepKeepsWaitAtItsInstruction : Obligations.StepKeepsWaitAtItsInstruction := by
  intro s t hs hstep
  rcases step_cases hstep with ⟨r, -, rfl⟩ | ⟨x, -, -, rfl⟩ | ⟨hr, c, -, rfl⟩ | ⟨hr, -, -, rfl⟩ | ⟨i, hi, he⟩
  · exact hs
  · exact State.waitOk_pollKey hs x
  · exact State.waitOk_of_await_none hr.2
  · exact State.waitOk_of_await_none hr.2
  · exact waitOk_exec hi he

/-! ## The guarded parts (R37, R41, R45) -/

theorem State.pollKey_keeps_guarded (s : State) (x : Reg) :
    ((s.pollKey x).sp = s.sp ∧ (s.pollKey x).stack = s.stack) ∧
      (s.pollKey x).key = s.key ∧ (s.pollKey x).params = s.params := by
  rcases s.pollKey_cases x with ⟨k, -, hp⟩ | ⟨-, -, hp⟩ | ⟨-, -, hp⟩ <;> rw [hp] <;> exact ⟨⟨rfl, rfl⟩, rfl, rfl⟩

theorem exec_keeps_latch_and_params {i : Instr} {s t : State} (h : exec i s = .next t) :
    t.key = s.key ∧ t.params = s.params := by
  obtain ⟨c, -, rfl⟩ | ⟨-, hkey, hparams⟩ := exec_cases h
  · exact ⟨rfl, rfl⟩
  · exact ⟨hkey, hparams⟩

/-- Settles O16: only an executed instruction can touch the stack, and of these only `CALL` and `RET` do. -/
theorem stackLatchAndParametersAreGuarded : Obligations.StackLatchAndParametersAreGuarded := by
  intro s t hstep
  rcases step_cases hstep with ⟨r, -, rfl⟩ | ⟨x, -, -, rfl⟩ | ⟨-, c, -, rfl⟩ | ⟨-, -, -, rfl⟩ | ⟨i, hi, he⟩
  · exact ⟨.inl ⟨rfl, rfl⟩, rfl, rfl⟩
  · obtain ⟨hstack, hrest⟩ := s.pollKey_keeps_guarded x
    exact ⟨.inl hstack, hrest⟩
  · exact ⟨.inl ⟨rfl, rfl⟩, rfl, rfl⟩
  · exact ⟨.inl ⟨rfl, rfl⟩, rfl, rfl⟩
  · refine ⟨?_, exec_keeps_latch_and_params he⟩
    rcases exec_stack_cases he with hk | ⟨nnn, rfl⟩ | rfl
    · exact .inl hk
    · exact .inr (.inl ⟨nnn, hi⟩)
    · exact .inr (.inr hi)

/-! ## What no instruction reads (R37, R39, R43)

The relation `SameButUnread` is kept by every operation a meaning is built from, so by every meaning, so by `STEP`. -/

/-- The second state written out as an update of the first, so that every other field of it reduces to the first's. -/
theorem sameButUnread_iff {s s' : State} : SameButUnread s s' ↔
    ∃ st stack prev, s' = { s with st := st, stack := stack, waitPrev := prev } ∧
      (∀ j : Fin 16, j.val < s.sp.val → stack[j] = s.stack[j]) ∧
      (s.params.keyWait = .edge → prev = s.waitPrev) := by
  constructor
  · rintro ⟨hs, hstack, hprev⟩
    exact ⟨_, _, _, hs, hstack, hprev⟩
  · rintro ⟨st, stack, prev, rfl, hstack, hprev⟩
    exact ⟨rfl, hstack, hprev⟩

section Unread
variable {s s' : State} (h : SameButUnread s s')
include h

/-- The rule most updates are a case of: the same new values in fields that are read, any new values in `ST`. -/
theorem SameButUnread.update (v : Vector Byte 16) (i pc : Word) (dt st st' : Byte) (disp : Display)
    (await : Option Reg) (halt : Option FatalRecord) (mem : Memory) (draws : Nat) :
    SameButUnread
      { s with v := v, i := i, pc := pc, dt := dt, st := st, disp := disp, await := await, halt := halt,
               mem := mem, draws := draws }
      { s' with v := v, i := i, pc := pc, dt := dt, st := st', disp := disp, await := await, halt := halt,
                mem := mem, draws := draws } := by
  obtain ⟨_, _, _, rfl, hstack, hprev⟩ := sameButUnread_iff.mp h
  exact ⟨rfl, hstack, hprev⟩

theorem SameButUnread.skipIf (c : Bool) : SameButUnread (s.skipIf c) (s'.skipIf c) := by
  obtain ⟨_, _, _, rfl, -, -⟩ := sameButUnread_iff.mp h
  cases c <;> exact h.update ..

theorem SameButUnread.writeWithFlag (x : Reg) (r : Byte) (f : Bool) :
    SameButUnread (s.writeWithFlag x r f) (s'.writeWithFlag x r f) := by
  obtain ⟨_, _, _, rfl, -, -⟩ := sameButUnread_iff.mp h
  unfold State.writeWithFlag
  cases s.params.vfOrder <;> exact h.update ..

theorem SameButUnread.advance : SameButUnread s.advance s'.advance := by
  obtain ⟨_, _, _, rfl, -, -⟩ := sameButUnread_iff.mp h
  exact h.update ..

theorem SameButUnread.logicResult (x : Reg) (r : Byte) :
    SameButUnread (s.logicResult x r) (s'.logicResult x r) := by
  obtain ⟨_, _, _, rfl, -, -⟩ := sameButUnread_iff.mp h
  unfold State.logicResult
  cases s.params.logicVf
  · exact h.update ..
  · exact h.writeWithFlag x r false

theorem SameButUnread.status_eq : s'.status = s.status := by
  obtain ⟨_, _, _, rfl, -, -⟩ := sameButUnread_iff.mp h
  rfl

/-- Under `level` the previous sample is not read, under `edge` the two states hold the same one (R43, R254). -/
theorem SameButUnread.candidates_eq : s'.candidates = s.candidates := by
  obtain ⟨_, _, _, rfl, -, hprev⟩ := sameButUnread_iff.mp h
  unfold State.candidates
  cases hk : s.params.keyWait with
  | level => rfl
  | edge => simp only [hprev hk]

theorem SameButUnread.pollKey (x : Reg) :
    SameButUnread (s.pollKey x) (s'.pollKey x) := by
  have hc := h.candidates_eq
  obtain ⟨_, _, _, rfl, hstack, -⟩ := sameButUnread_iff.mp h
  unfold State.pollKey
  rw [hc]
  cases lowestKey s.candidates with
  | some k => exact h.update ..
  | none =>
    cases hk : s.params.keyWait with
    | level => exact h
    | edge => exact ⟨rfl, hstack, fun _ => rfl⟩

end Unread

/-- Both answer a state, and the two states differ at most in what no instruction reads. -/
inductive SameAnswerButUnread : Result → Result → Prop
  | next {t t' : State} (h : SameButUnread t t') : SameAnswerButUnread (.next t) (.next t')

theorem SameAnswerButUnread.of_next {t : State} {r' : Result} (h : SameAnswerButUnread (.next t) r') :
    ∃ t', r' = .next t' ∧ SameButUnread t t' := by
  cases h with | next ht => exact ⟨_, rfl, ht⟩

/-- A push writes the same entry in both stacks, the one entry that comes into use (R222). -/
theorem SameButUnread.execCall {s s' : State} (h : SameButUnread s s') (nnn : Addr12) :
    SameAnswerButUnread (execCall nnn s) (execCall nnn s') := by
  obtain ⟨_, stack, prev, hs', hstack, hprev⟩ := sameButUnread_iff.mp h
  have hsp : s'.sp = s.sp := by rw [hs']
  by_cases hs : s.sp.val < 16
  · rw [execCall_of_lt nnn hs, execCall_of_lt nnn (hsp ▸ hs)]
    subst hs'
    refine .next ⟨rfl, fun j hj => ?_, hprev⟩
    simp only [Fin.getElem_fin, Vector.getElem_set]
    split
    · rfl
    · exact hstack j (by simp only at hj; omega)
  · have hfull : s.sp.val = 16 := by omega
    rw [execCall_of_full nnn hfull, execCall_of_full nnn (hsp ▸ hfull)]
    subst hs'
    exact .next (h.update ..)

/-- A pop reads an entry in use, and fewer are in use afterwards (R220). -/
theorem SameButUnread.execRet {s s' : State} (h : SameButUnread s s') :
    SameAnswerButUnread (execRet s) (execRet s') := by
  obtain ⟨_, stack, prev, hs', hstack, hprev⟩ := sameButUnread_iff.mp h
  have hsp : s'.sp = s.sp := by rw [hs']
  by_cases hs : 0 < s.sp.val
  · rw [execRet_of_pos hs, execRet_of_pos (hsp ▸ hs)]
    subst hs'
    have htop : stack[s.sp.val - 1] = s.stack[s.sp.val - 1] :=
      hstack ⟨s.sp.val - 1, by omega⟩ (show s.sp.val - 1 < s.sp.val by omega)
    simp only [htop]
    exact .next ⟨rfl, fun j hj => hstack j (Nat.lt_of_lt_of_le hj (Nat.sub_le _ _)), hprev⟩
  · have hempty : s.sp.val = 0 := by omega
    rw [execRet_of_empty hempty, execRet_of_empty (hsp ▸ hempty)]
    subst hs'
    exact .next (h.update ..)

/-- A wait that begins under `edge` takes the latch, not the old sample, as its first previous one (R255). -/
theorem SameButUnread.execLdVxK {s s' : State} (h : SameButUnread s s') (x : Reg) :
    SameAnswerButUnread (execLdVxK x s) (execLdVxK x s') := by
  obtain ⟨_, _, _, rfl, hstack, -⟩ := sameButUnread_iff.mp h
  unfold Machine.execLdVxK
  cases s.params.keyWait <;> cases lowestKey s.key
  case level.none | level.some => exact .next (h.update ..)
  case edge.none | edge.some => exact .next ⟨rfl, hstack, fun _ => rfl⟩

/-- Every meaning reads the same in both states; the skips, the flag writers and the checked ones also branch alike. -/
theorem exec_sameButUnread {s s' : State} (h : SameButUnread s s') (i : Instr) :
    SameAnswerButUnread (exec i s) (exec i s') := by
  obtain ⟨_, _, _, rfl, -, -⟩ := sameButUnread_iff.mp h
  cases i
  case sneImm | seImm | seReg | sneReg | skp | sknp => exact .next (h.skipIf _)
  case orReg | andReg | xorReg => exact .next (h.logicResult _ _).advance
  case addReg | subReg | subn | shr | shl => exact .next (h.writeWithFlag _ _ _).advance
  case draw x y n =>
    simp only [exec, execDraw]
    cases drawCheck s.i n.val <;> exact .next (h.update ..)
  case ldB x =>
    simp only [exec, execLdB]
    cases checkWritable s.params s.i.toNat 3 <;> exact .next (h.update ..)
  case ldMemVx x =>
    simp only [exec, execLdMemVx]
    cases checkWritable s.params s.i.toNat (x.val + 1) <;> exact .next (h.update ..)
  case ldVxMem x =>
    simp only [exec, execLdVxMem]
    cases checkRange s.i.toNat (x.val + 1) <;> exact .next (h.update ..)
  case call nnn => exact h.execCall nnn
  case ret => exact h.execRet
  case ldVxK x => exact h.execLdVxK x
  all_goals exact .next (h.update ..)

/-- Two engines that agree in all that is read take the same branch of the cycle (R144). -/
theorem step_sameButUnread {s s' t : State} (h : SameButUnread s s') (hstep : step s = .next t) :
    ∃ t', step s' = .next t' ∧ SameButUnread t t' := by
  obtain ⟨_, _, _, rfl, -, -⟩ := sameButUnread_iff.mp h
  rcases step_cases hstep with ⟨r, hr, rfl⟩ | ⟨x, hh, ha, rfl⟩ | ⟨hr, c, hc, rfl⟩ | ⟨hr, hf, ⟨e, hd⟩, rfl⟩ | ⟨i, hi, he⟩
  · exact ⟨_, step_of_halted hr, h⟩
  · exact ⟨_, step_of_waiting hh ha, h.pollKey x⟩
  · exact ⟨_, step_of_fetchCheck hr hc, h.update ..⟩
  · exact ⟨_, step_of_decode_error hr hf hd, h.update ..⟩
  · obtain ⟨t', he', ht⟩ := (he ▸ exec_sameButUnread h i).of_next
    exact ⟨t', Eq.trans (step_of_executes hi) he', ht⟩

/-- Settles O58: `SameButUnread` is kept by every step, and the status is read off fields in which the two agree. -/
theorem unreadStateDoesNotShow : Obligations.UnreadStateDoesNotShow := by
  intro s s' t h hstep
  obtain ⟨t', hstep', ht⟩ := step_sameButUnread h hstep
  exact ⟨t', hstep', ht, ht.status_eq⟩

end Sys2Proof.Machine

/-! # Proofs about memory (20_memory.md): what is fetched is what runs, who may write, what no step writes -/

namespace Sys2Proof

/-! ## Decoding an encoded descriptor (R104, R105) -/

/-- `SYS` carries neither field of the two family-0 words with a meaning of their own (R239). -/
theorem decode_encode_sys {nnn : Addr12} (h : (Instr.sys nnn).wellFormed = true) :
    decode (encode (.sys nnn)) = .ok (.sys nnn) := by
  obtain ⟨hcls, hret⟩ : nnn ≠ 0x0E0#12 ∧ nnn ≠ 0x0EE#12 := by simpa [Instr.wellFormed] using h
  have hnotCls : encodeNNN 0x0#4 nnn ≠ 0x00E0#16 := fun e => hcls (encodeNNN_inj (op' := 0x0#4) (nnn' := 0x0E0#12) e).2
  have hnotRet : encodeNNN 0x0#4 nnn ≠ 0x00EE#16 := fun e => hret (encodeNNN_inj (op' := 0x0#4) (nnn' := 0x0EE#12) e).2
  simp [encode, decode, decodeFamily0, hnotCls, hnotRet]

theorem decode_encode {i : Instr} (h : i.wellFormed = true) : decode (encode i) = .ok i := by
  cases i
  case cls | ret => rfl
  case sys => exact decode_encode_sys h
  all_goals simp [encode, decode, decodeFamily8, decodeFamilyE, decodeFamilyF]

end Sys2Proof

namespace Sys2Proof.Machine

/-! ## Reset contents (R47, R72, R354) -/

theorem unlistedByte_of_le {a : Nat} (ha : 80 ≤ a) : unlistedByte a = 0x00#8 := by
  simp [unlistedByte, fontByte, ha]

/-- Settles O50: the fields of `State.reset`, and memory with nothing listed. -/
theorem resetStateHoldsTheSpecValues : Obligations.ResetStateHoldsTheSpecValues := by
  refine ⟨by simp [State.reset], rfl, rfl, rfl, rfl, rfl, by simp [State.reset], by simp [State.reset], rfl, rfl,
    by decide, by decide, fun a ha => ?_⟩
  exact unlistedByte_of_le ha

/-! ## Fetch (R80, R84, R133, R134) -/

section Fetch
variable {s : State}

theorem fetchCheck_of_beyond (h : 0xFFF ≤ s.pc.toNat) :
    fetchCheck s.params s.pc = some { kind := .bounds, info := some s.pc.toNat } := by
  rw [fetchCheck, if_pos (by omega)]

theorem fetchCheck_of_misaligned (h : s.pc.toNat < 0xFFF) (hodd : s.pc.toNat % 2 = 1)
    (hp : s.params.oddPc = .fault) :
    fetchCheck s.params s.pc = some { kind := .misalignedFetch, info := some s.pc.toNat } := by
  rw [fetchCheck, if_neg (by omega), if_pos ⟨hodd, hp⟩]

end Fetch

/-- Settles O5: its hypotheses are `executes`, spelled out. -/
theorem stepRunsDecodedInstruction : Obligations.StepRunsDecodedInstruction := by
  intro s i hhalt hawait hpc hodd hdecode
  exact step_of_executes ⟨⟨hhalt, hawait⟩, ⟨hpc, hodd⟩, hdecode⟩

/-- Settles O9: one rule of the front per clause, in the order of R319. -/
theorem fetchErrorsInOrder : Obligations.FetchErrorsInOrder := by
  intro s hr
  refine ⟨fun hpc => ?bounds, fun hpc hodd hp => ?misaligned, fun hf ⟨e, he⟩ => ?decode⟩
  case bounds => exact step_of_fetchCheck hr (fetchCheck_of_beyond hpc)
  case misaligned => exact step_of_fetchCheck hr (fetchCheck_of_misaligned hpc hodd hp)
  case decode => exact step_of_decode_error hr hf he

/-- The word laid at a `PC` inside memory is the opcode the next fetch reads (R82, R84). -/
theorem opcodeAt_withOpcode {s : State} (hm : s.MemOk) (hpc : s.pc.toNat + 1 ≤ 0xFFF) (w : Word) :
    opcodeAt (s.withOpcode w) = w := by
  have hread := Memory.read_writeRun (bytes := [highByte w, lowByte w]) hm
    (show s.pc.toNat + 2 ≤ Config.memSize by simp only [Config.memSize]; omega)
  have hhi : (s.withOpcode w).mem.read s.pc.toNat = highByte w := (hread _).trans (by simp)
  have hlo : (s.withOpcode w).mem.read (s.pc.toNat + 1) = lowByte w := (hread _).trans (by simp)
  calc opcodeAt (s.withOpcode w)
      = joinBytes ((s.withOpcode w).mem.read s.pc.toNat) ((s.withOpcode w).mem.read (s.pc.toNat + 1)) :=
        (fetchWord_eq _).symm
    _ = w := by rw [hhi, hlo, joinBytes_high_low]

/-- Settles O6: the placed word is fetched, and it decodes to the descriptor it encodes. -/
theorem placedInstructionRunsNext : Obligations.PlacedInstructionRunsNext := by
  intro s i hm hf hi
  rw [State.withFetchWord, tableWord_toNat]
  have hdecode : decode (opcodeAt (s.withOpcode (encode i))) = .ok i := by
    rw [opcodeAt_withOpcode hm hf.1, decode_encode hi]
  exact step_of_executes ⟨⟨rfl, rfl⟩, hf, hdecode⟩

/-! ## The checks of a data access (R79, R81) -/

section Checks
variable {base count : Nat}

theorem checkRange_of_beyond (hc : 0 < count) (h : 0x1000 < base + count) :
    checkRange base count = some { kind := .bounds, info := some (max base 0x1000) } := by
  rw [checkRange_eq base count hc, if_neg (by omega)]

theorem checkWritable_of_beyond (p : Params) (hc : 0 < count) (h : 0x1000 < base + count) :
    checkWritable p base count = some { kind := .bounds, info := some (max base 0x1000) } := by
  rw [checkWritable_eq p base count hc, if_neg (by omega)]

/-- No store is long enough to reach beyond 0xFFF from the reserved area, so the bounds check passes there. -/
theorem checkWritable_of_reserved {p : Params} (hp : p.reservedWrite = .fault) (hb : base < 0x200)
    (hc : 0 < count) (hcount : count ≤ 16) :
    checkWritable p base count = some { kind := .reservedWrite, info := some base } := by
  rw [checkWritable_eq p base count hc, if_pos (by omega), if_pos ⟨hp, hb⟩]

end Checks

/-! ## The three instructions that access data, on each side of their check (R283 to R287) -/

section DataAccess
variable {s : State} {x : Reg} {c : Cause}

theorem exec_ldB_of_check (h : checkWritable s.params s.i.toNat 3 = some c) :
    exec (.ldB x) s = .next (s.fatal c (some (encode (.ldB x)))) := by
  simp only [exec, execLdB, h, raise]

theorem exec_ldMemVx_of_check (h : checkWritable s.params s.i.toNat (x.val + 1) = some c) :
    exec (.ldMemVx x) s = .next (s.fatal c (some (encode (.ldMemVx x)))) := by
  simp only [exec, execLdMemVx, h, raise]

theorem exec_ldVxMem_of_check (h : checkRange s.i.toNat (x.val + 1) = some c) :
    exec (.ldVxMem x) s = .next (s.fatal c (some (encode (.ldVxMem x)))) := by
  simp only [exec, execLdVxMem, h, raise]

end DataAccess

/-- Settles O44: each clause is one outcome of a check, which the instruction raises before it writes. -/
theorem badMemoryAccessIsFatal : Obligations.BadMemoryAccessIsFatal := by
  intro x s
  have hx := x.isLt
  refine ⟨fun h => ?ldB, fun hi hp => ?ldBReserved, fun h => ⟨?ldMemVx, ?ldVxMem⟩, fun hi hp => ?ldMemVxReserved⟩
  case ldB => exact exec_ldB_of_check (checkWritable_of_beyond s.params (by decide) h)
  case ldBReserved => exact exec_ldB_of_check (checkWritable_of_reserved hp hi (by decide) (by decide))
  case ldMemVx => exact exec_ldMemVx_of_check (checkWritable_of_beyond s.params (Nat.succ_pos _) h)
  case ldVxMem => exact exec_ldVxMem_of_check (checkRange_of_beyond (Nat.succ_pos _) h)
  case ldMemVxReserved =>
    exact exec_ldMemVx_of_check (checkWritable_of_reserved hp hi (Nat.succ_pos _) hx)

/-! ## Which instructions write memory (R77, R89) -/

/-- The bytes an instruction stores from `I` upward, where it stores any (R283, R285). -/
def storedBytes (s : State) : Instr → Option (List Byte)
  | .ldB x => some (decimalDigits (s.readV x))
  | .ldMemVx x => some (firstRegs s x)
  | _ => none

theorem length_firstRegs (s : State) (x : Reg) : (firstRegs s x).length = x.val + 1 := by
  simp [firstRegs]

theorem storedBytes_cases {s : State} {i : Instr} {bytes : List Byte} (h : storedBytes s i = some bytes) :
    (∃ x, i = .ldB x) ∨ ∃ x, i = .ldMemVx x := by
  unfold storedBytes at h
  split at h
  case h_1 x => exact .inl ⟨x, rfl⟩
  case h_2 x => exact .inr ⟨x, rfl⟩
  case h_3 => cases h

theorem exec_keeps_mem {i : Instr} {s t : State} (hi : storedBytes s i = none) (h : exec i s = .next t) :
    t.mem = s.mem := by
  cases i <;> simp only [exec] at h
  case ldB | ldMemVx => cases hi
  case sys => cases h; rfl
  case ret =>
    unfold execRet at h
    split at h
    case h_1 hp => obtain ⟨_, _, rfl⟩ := State.pop_some hp; cases h; rfl
    case h_2 => cases h; rfl
  case call =>
    unfold execCall at h
    split at h
    case h_1 hp => obtain ⟨_, rfl⟩ := State.push_some hp; cases h; rfl
    case h_2 => cases h; rfl
  case draw | ldVxMem | ldVxK =>
    simp only [execDraw, execLdVxMem, execLdVxK] at h
    split at h <;> cases h <;> rfl
  all_goals
    cases h
    simp

/-- Everything executing an instruction can do to memory: nothing, or the store its check has allowed. -/
theorem exec_mem_cases {i : Instr} {s t : State} (h : exec i s = .next t) :
    t.mem = s.mem ∨
    ∃ bytes, storedBytes s i = some bytes ∧ storeAllowed s bytes.length ∧
      t.mem = s.mem.writeRun s.i.toNat bytes := by
  cases i
  case ldB x =>
    simp only [exec, execLdB] at h
    split at h
    case h_1 => cases h; exact .inl rfl
    case h_2 hc =>
      cases h
      exact .inr ⟨_, rfl, (checkWritable_none_iff s 3 (by decide)).mp hc, rfl⟩
  case ldMemVx x =>
    simp only [exec, execLdMemVx] at h
    split at h
    case h_1 => cases h; exact .inl rfl
    case h_2 hc =>
      cases h
      refine .inr ⟨_, rfl, ?_, rfl⟩
      rw [length_firstRegs]
      exact (checkWritable_none_iff s _ (Nat.succ_pos _)).mp hc
  all_goals exact .inl (exec_keeps_mem rfl h)

@[simp] theorem State.pollKey_mem (s : State) (x : Reg) : (s.pollKey x).mem = s.mem := by
  rcases s.pollKey_cases x with ⟨k, -, hp⟩ | ⟨-, -, hp⟩ | ⟨-, -, hp⟩ <;> simp [hp]

@[simp] theorem State.tick_mem (s : State) : s.tick.mem = s.mem := by
  unfold State.tick
  split <;> rfl

/-- Everything a step can do to memory: nothing, or the store of the instruction it executes. -/
theorem step_mem_cases {s t : State} (h : step s = .next t) :
    t.mem = s.mem ∨
    ∃ i bytes, executes s i ∧ storedBytes s i = some bytes ∧ storeAllowed s bytes.length ∧
      t.mem = s.mem.writeRun s.i.toNat bytes := by
  rcases step_cases h with ⟨r, -, rfl⟩ | ⟨x, -, -, rfl⟩ | ⟨-, c, -, rfl⟩ | ⟨-, -, -, rfl⟩ | ⟨i, hi, he⟩
  · exact .inl rfl
  · exact .inl (s.pollKey_mem x)
  · exact .inl rfl
  · exact .inl rfl
  · rcases exec_mem_cases he with hsame | ⟨bytes, hbytes, hallowed, hmem⟩
    · exact .inl hsame
    · exact .inr ⟨i, bytes, hi, hbytes, hallowed, hmem⟩

/-- Settles O14: a step that changes memory executes an instruction with bytes to store, and two have any. -/
theorem memoryChangesOnlyByStores : Obligations.MemoryChangesOnlyByStores := by
  intro s t
  refine ⟨fun hstep => ?_, s.tick_mem, s.setKey_mem⟩
  rcases step_mem_cases hstep with hsame | ⟨i, bytes, hi, hbytes, -, -⟩
  · exact .inl hsame
  · rcases storedBytes_cases hbytes with ⟨x, rfl⟩ | ⟨x, rfl⟩
    · exact .inr (.inl ⟨x, hi⟩)
    · exact .inr (.inr ⟨x, hi⟩)

/-! ## The reserved area (R72, R81) -/

theorem step_keeps_params {s t : State} (h : step s = .next t) : t.params = s.params :=
  (stackLatchAndParametersAreGuarded s t h).2.2

/-- An allowed store under `P_RESERVED_WRITE = fault` lies at 0x200 or above. -/
theorem storeAllowed.base_ge {s : State} {count : Nat} (h : storeAllowed s count)
    (hp : s.params.reservedWrite = .fault) : 0x200 ≤ s.i.toNat :=
  h.2.resolve_right (by simp [hp])

/-- Settles O55: the one way to change memory is an allowed store, which under `fault` begins above the area. -/
theorem stepKeepsReservedArea : Obligations.StepKeepsReservedArea := by
  intro s t hm hs hstep hp a ha
  rw [step_keeps_params hstep] at hp ⊢
  rcases step_mem_cases hstep with hsame | ⟨i, bytes, -, -, hallowed, hmem⟩
  · rw [hsame]
    exact hs hp a ha
  · have hbase := hallowed.base_ge hp
    calc t.mem.read a = s.mem.read a := by rw [hmem, Memory.read_writeRun_outside hm (.inl (by omega))]
      _ = fontByte s.params.font a := hs hp a ha

end Sys2Proof.Machine

/-! # Proofs about encoding (30_encoding.md): decode and encode are inverse to each other (R104, R105) -/

namespace Sys2Proof

/-! ## The word of a row, from the fields the row selects on

`op` is the family of `w`; the third argument of the row is either a field of `w` or the constant that selects the row. -/

section Rows
variable {w : Word} {op : BitVec 4} {i : Instr}

theorem encodeXNN_eq_of_fields {nn : Byte} (hop : fieldN3 w = op) (hnn : fieldNN w = nn) :
    encodeXNN op (fieldX w) nn = w := by
  rw [← hop, ← hnn, encodeXNN_fields]

theorem encodeXYN_eq_of_fields {n : BitVec 4} (hop : fieldN3 w = op) (hn : fieldN w = n) :
    encodeXYN op (fieldX w) (fieldY w) n = w := by
  rw [← hop, ← hn, encodeXYN_fields]

theorem encodeNNN_eq_of_fields {nnn : Addr12} (hop : fieldN3 w = op) (hnnn : fieldNNN w = nnn) :
    encodeNNN op nnn = w := by
  rw [← hop, ← hnnn, encodeNNN_fields]

/-! ## The families with rows of their own (R103) -/

/-- What is left to `SYS` is a word of neither `CLS` nor `RET`, so its field is neither word's (R239). -/
theorem encode_decodeFamily0 (hop : fieldN3 w = 0x0#4) :
    encode (decodeFamily0 w) = w ∧ (decodeFamily0 w).wellFormed = true := by
  unfold decodeFamily0
  split_ifs with hcls hret
  · exact ⟨hcls.symm, rfl⟩
  · exact ⟨hret.symm, rfl⟩
  · have hnotCls : fieldNNN w ≠ 0x0E0#12 := fun e => hcls (encodeNNN_eq_of_fields hop e).symm
    have hnotRet : fieldNNN w ≠ 0x0EE#12 := fun e => hret (encodeNNN_eq_of_fields hop e).symm
    exact ⟨encodeNNN_eq_of_fields hop rfl, by simp [Instr.wellFormed, hnotCls, hnotRet]⟩

theorem encode_of_decodeFamily8 (hop : fieldN3 w = 0x8#4) (h : decodeFamily8 w = .ok i) :
    encode i = w ∧ i.wellFormed = true := by
  unfold decodeFamily8 at h
  split at h
  case h_10 => cases h
  all_goals cases h; exact ⟨encodeXYN_eq_of_fields hop ‹fieldN w = _›, rfl⟩

theorem encode_of_decodeFamilyE (hop : fieldN3 w = 0xE#4) (h : decodeFamilyE w = .ok i) :
    encode i = w ∧ i.wellFormed = true := by
  unfold decodeFamilyE at h
  split at h
  case h_3 => cases h
  all_goals cases h; exact ⟨encodeXNN_eq_of_fields hop ‹fieldNN w = _›, rfl⟩

theorem encode_of_decodeFamilyF (hop : fieldN3 w = 0xF#4) (h : decodeFamilyF w = .ok i) :
    encode i = w ∧ i.wellFormed = true := by
  unfold decodeFamilyF at h
  split at h
  case h_10 => cases h
  all_goals cases h; exact ⟨encodeXNN_eq_of_fields hop ‹fieldNN w = _›, rfl⟩

/-! ## The whole map -/

/-- The rows of a family's own operations need what selected them; in every other row each field is an operand. -/
theorem encode_of_decode (h : decode w = .ok i) : encode i = w ∧ i.wellFormed = true := by
  unfold decode at h
  split at h
  case h_1 hop => cases h; exact encode_decodeFamily0 hop
  case h_9 hop => exact encode_of_decodeFamily8 hop h
  case h_15 hop => exact encode_of_decodeFamilyE hop h
  case h_16 => -- the decoder's last row: none of the other 15 families
    have hop : fieldN3 w = 0xF#4 := by
      simp only [imp_false] at *
      bv_omega
    exact encode_of_decodeFamilyF hop h
  case h_6 hop | h_10 hop =>
    split_ifs at h with hn
    cases h
    exact ⟨encodeXYN_eq_of_fields hop hn, rfl⟩
  case h_14 hop => cases h; exact ⟨encodeXYN_eq_of_fields hop rfl, rfl⟩
  case h_2 hop | h_3 hop | h_11 hop | h_12 hop => cases h; exact ⟨encodeNNN_eq_of_fields hop rfl, rfl⟩
  case h_4 hop | h_5 hop | h_7 hop | h_8 hop | h_13 hop => cases h; exact ⟨encodeXNN_eq_of_fields hop rfl, rfl⟩

end Rows

end Sys2Proof

namespace Sys2Proof.Machine

/-- Settles O2: the fields of an encoded word are the operands, and a well-formed `SYS` is no other row's word. -/
theorem decodeOfEncodeIsInstruction : Obligations.DecodeOfEncodeIsInstruction :=
  fun _ hi => decode_encode hi

/-- Settles O3: the row that decoded the word rebuilds it from its fields. -/
theorem encodeOfDecodeIsWord : Obligations.EncodeOfDecodeIsWord :=
  fun _ _ h => encode_of_decode h

end Sys2Proof.Machine

/-! # Proofs about the execution cycle (40_execution_cycle.md): every step answers, what a wait, `PC` and a timer do -/

namespace Sys2Proof.Machine

/-! ## Every step answers a state (R130, R316) -/

/-- The failures, at the stack's ends and at the checked accesses, are states as well, and so are both key waits. -/
theorem exec_answers (i : Instr) (s : State) : ∃ t, exec i s = .next t := by
  cases i
  case ret | call | draw | ldB | ldMemVx | ldVxMem | ldVxK =>
    simp only [exec, execRet, execCall, execDraw, execLdB, execLdMemVx, execLdVxMem, execLdVxK]
    split <;> exact ⟨_, rfl⟩
  all_goals exact ⟨_, rfl⟩

/-- Settles O10: the front ends the step in a state, or hands over to a meaning, which answers one. -/
theorem everyStepAnswersAState : Obligations.EveryStepAnswersAState := by
  intro s
  rcases s.front_cases with ⟨r, hr, -⟩ | ⟨x, hh, ha, -⟩ | ⟨hr, c, hc, -⟩ | ⟨hr, hf, ⟨e, he⟩, -⟩ | ⟨i, hi, -⟩
  · exact ⟨_, step_of_halted hr⟩
  · exact ⟨_, step_of_waiting hh ha⟩
  · exact ⟨_, step_of_fetchCheck hr hc⟩
  · exact ⟨_, step_of_decode_error hr hf he⟩
  · rw [step_of_executes hi]
    exact exec_answers i s

/-! ## Frames -/

/-- A frame, part by part: with the changed parts and the two states given, `simp` decides each. -/
theorem frameBut_iff (changed : List Part) (s t : State) : FrameBut changed s t ↔
    (.v ∉ changed → t.v = s.v) ∧ (.i ∉ changed → t.i = s.i) ∧ (.pc ∉ changed → t.pc = s.pc) ∧
    (.stack ∉ changed → t.sp = s.sp ∧ t.stack = s.stack) ∧
    (.dt ∉ changed → t.dt = s.dt) ∧ (.st ∉ changed → t.st = s.st) ∧ (.disp ∉ changed → t.disp = s.disp) ∧
    (.key ∉ changed → t.key = s.key) ∧ (.await ∉ changed → t.await = s.await) ∧
    (.waitPrev ∉ changed → t.waitPrev = s.waitPrev) ∧ (.halt ∉ changed → t.halt = s.halt) ∧
    (.mem ∉ changed → ∀ a, t.mem.read a = s.mem.read a) ∧
    (.params ∉ changed → t.params = s.params) ∧ (.draws ∉ changed → t.draws = s.draws) := by
  constructor
  · intro h
    exact ⟨h .v, h .i, h .pc, h .stack, h .dt, h .st, h .disp, h .key, h .await, h .waitPrev, h .halt, h .mem,
      h .params, h .draws⟩
  · rintro ⟨hv, hi, hpc, hstack, hdt, hst, hdisp, hkey, hawait, hprev, hhalt, hmem, hparams, hdraws⟩ p
    cases p <;> assumption

theorem FrameBut.refl (l : List Part) (s : State) : FrameBut l s s := by
  simp [frameBut_iff]

theorem frameBut_fatal (l : List Part) (s : State) (c : Cause) (w : Option Word) :
    FrameBut (.halt :: l) s (s.fatal c w) := by
  simp [frameBut_iff]

theorem frameBut_pollKey (s : State) (x : Reg) : FrameBut [.v, .pc, .await, .waitPrev] s (s.pollKey x) := by
  rcases s.pollKey_cases x with ⟨k, -, hp⟩ | ⟨-, -, hp⟩ | ⟨-, -, hp⟩ <;> simp [frameBut_iff, hp]

/-! ## A step while waiting (R132, R254 to R256) -/

theorem toNat_keyByte (k : Key) : (keyByte k).toNat = k.val := by
  rw [keyByte, BitVec.toNat_ofNat]
  omega

/-- Not qualifying, in the words of R254 and R255: not held, or under `edge` held at the previous sample already. -/
theorem State.candidates_get_eq_false_iff (s : State) (k : Key) :
    s.candidates[k] = false ↔ s.key[k] = false ∨ (s.params.keyWait = .edge ∧ s.waitPrev[k] = true) := by
  rw [s.candidates_get]
  cases s.params.keyWait <;> simp [imp_iff_not_or]

theorem State.candidates_get_eq_true_iff (s : State) (k : Key) :
    s.candidates[k] = true ↔ s.key[k] = true ∧ (s.params.keyWait = .edge → s.waitPrev[k] = false) := by
  rw [s.candidates_get]
  cases s.params.keyWait <;> simp

section Waiting
variable {s : State}

theorem State.pollKey_of_some {k : Key} (hk : lowestKey s.candidates = some k) (x : Reg) :
    s.pollKey x = { (s.writeV x (keyByte k)).advance with await := none } := by
  rw [State.pollKey, hk]

theorem State.pollKey_of_level (hn : lowestKey s.candidates = none) (hp : s.params.keyWait = .level) (x : Reg) :
    s.pollKey x = s := by
  simp only [State.pollKey, hn, hp]

theorem State.pollKey_of_edge (hn : lowestKey s.candidates = none) (hp : s.params.keyWait = .edge) (x : Reg) :
    s.pollKey x = { s with waitPrev := s.key } := by
  simp only [State.pollKey, hn, hp]

theorem State.status_of_waiting {x : Reg} (hh : s.halt = none) (ha : s.await = some x) : s.status = .blocked := by
  rw [State.status, hh, ha]

theorem State.status_of_running (hr : running s) : s.status = .ok := by
  rw [State.status, hr.1, hr.2]

end Waiting

/-- Settles O8: the step is the poll, whose branch the lowest qualifying key decides. -/
theorem waitingStepPollsLatch : Obligations.WaitingStepPollsLatch := by
  intro s x hh ha
  refine ⟨fun hnone => ⟨_, step_of_waiting hh ha, ?blocked⟩,
    fun k hk hfresh hlower => ⟨_, step_of_waiting hh ha, ?loaded⟩⟩
  case blocked =>
    have hn : lowestKey s.candidates = none :=
      (lowestKey_eq_none_iff _).mpr fun k => (s.candidates_get_eq_false_iff k).mpr (hnone k)
    cases hp : s.params.keyWait with
    | level =>
      rw [State.pollKey_of_level hn hp]
      exact ⟨State.status_of_waiting hh ha, fun _ => rfl, nofun⟩
    | edge =>
      rw [State.pollKey_of_edge hn hp]
      exact ⟨State.status_of_waiting hh ha, nofun, fun _ => ⟨rfl, by simp [frameBut_iff]⟩⟩
  case loaded =>
    have hlow : lowestKey s.candidates = some k :=
      (lowestKey_eq_some_iff _ k).mpr ⟨(s.candidates_get_eq_true_iff k).mpr ⟨hk, hfresh⟩,
        fun j hj => (s.candidates_get_eq_false_iff j).mpr (hlower j hj)⟩
    rw [State.pollKey_of_some hlow]
    refine ⟨State.status_of_running ⟨hh, rfl⟩, ?_, fun j hj => ?_, rfl, rfl, by simp [frameBut_iff]⟩
    · simp [toNat_keyByte]
    · exact (s.writeV_get x j _).trans (if_neg hj)

/-! ## Where `PC` stands after an instruction (R135, R139, R229) -/

/-- An instruction that does not steer `PC` ends at the next one, or in its own fatal error. -/
theorem exec_pc_cases {i : Instr} {s t : State} (hi : steersPc i = false) (h : exec i s = .next t) :
    t.pc = s.pc + 2#16 ∨ ∃ c, t = s.fatal c (some (encode i)) := by
  cases i <;> simp only [exec] at h
  case jp | jpV0 | call | ret | sys | seImm | sneImm | seReg | sneReg | skp | sknp | ldVxK => cases hi
  case draw | ldB | ldMemVx | ldVxMem =>
    simp only [execDraw, execLdB, execLdMemVx, execLdVxMem] at h
    split at h <;> cases h
    case h_1 c _ => exact .inr ⟨c, rfl⟩
    case h_2 => exact .inl rfl
  all_goals
    cases h
    left
    simp

theorem State.skipIf_pc_cases (s : State) (c : Bool) :
    (s.skipIf c).pc = s.pc + 2#16 ∨ (s.skipIf c).pc = s.pc + 4#16 := by
  rw [s.skipIf_pc]
  cases c
  · exact .inl rfl
  · exact .inr rfl

/-- Settles O12: an instruction's own error would have halted it; a skip is `skipIf` under its condition. -/
theorem normalInstructionsAdvanceByTwo : Obligations.NormalInstructionsAdvanceByTwo := by
  intro i s t h hhalt
  constructor
  · intro hi
    obtain hpc | ⟨c, rfl⟩ := exec_pc_cases hi h
    · exact hpc
    · cases hhalt
  · rintro ⟨x, nn, y, rfl | rfl | rfl | rfl | rfl | rfl⟩ <;> cases h <;> exact s.skipIf_pc_cases _

/-! ## Which parts an instruction may change -/

/-- The parts of the state an instruction may change when it raises no error. -/
def writtenParts : Instr → List Part
  | .cls => [.disp, .pc]
  | .draw _ _ _ => [.disp, .v, .pc]
  | .sys _ => []
  | .ret | .call _ => [.stack, .pc]
  | .jp _ | .jpV0 _ => [.pc]
  | .seImm _ _ | .sneImm _ _ | .seReg _ _ | .sneReg _ _ | .skp _ | .sknp _ => [.pc]
  | .ldImm _ _ | .addImm _ _ | .ldReg _ _ | .orReg _ _ | .andReg _ _ | .xorReg _ _ => [.v, .pc]
  | .addReg _ _ | .subReg _ _ | .shr _ _ | .subn _ _ | .shl _ _ | .ldVxDt _ => [.v, .pc]
  | .rnd _ _ => [.v, .draws, .pc]
  | .ldVxK _ => [.v, .await, .waitPrev, .pc]
  | .ldDtVx _ => [.dt, .pc]
  | .ldStVx _ => [.st, .pc]
  | .ldI _ | .addI _ | .ldF _ => [.i, .pc]
  | .ldB _ => [.mem, .pc]
  | .ldMemVx _ => [.mem, .i, .pc]
  | .ldVxMem _ => [.v, .i, .pc]

/-- The frame of every instruction: its own parts and, where it raises an error, the record. -/
theorem exec_frame {i : Instr} {s t : State} (h : exec i s = .next t) : FrameBut (.halt :: writtenParts i) s t := by
  cases i <;> simp only [exec] at h
  case sys => cases h; exact frameBut_fatal _ s _ _
  case ret =>
    unfold execRet at h
    split at h
    case h_1 hp => obtain ⟨_, _, rfl⟩ := State.pop_some hp; cases h; simp [frameBut_iff, writtenParts]
    case h_2 => cases h; exact frameBut_fatal _ s _ _
  case call =>
    unfold execCall at h
    split at h
    case h_1 hp => obtain ⟨_, rfl⟩ := State.push_some hp; cases h; simp [frameBut_iff, writtenParts]
    case h_2 => cases h; exact frameBut_fatal _ s _ _
  case draw | ldB | ldMemVx | ldVxMem =>
    simp only [execDraw, execLdB, execLdMemVx, execLdVxMem] at h
    split at h <;> cases h
    case h_1 => exact frameBut_fatal _ s _ _
    case h_2 => simp [frameBut_iff, writtenParts]
  case ldVxK =>
    obtain ⟨k, rfl⟩ | ⟨prev, rfl⟩ := exec_ldVxK_cases h <;> simp [frameBut_iff, writtenParts]
  all_goals
    cases h
    simp [frameBut_iff, writtenParts]

/-- A part that neither a poll nor an error touches changes only by executing an instruction that may change it. -/
theorem step_same_or_executes {s t : State} {p : Part} (hp : p ∉ [.v, .pc, .await, .waitPrev, .halt])
    (h : step s = .next t) : p.same s t ∨ ∃ i, executes s i ∧ p ∈ writtenParts i := by
  simp only [List.mem_cons, List.not_mem_nil, or_false, not_or] at hp
  obtain ⟨hv, hpc, hawait, hprev, hhalt⟩ := hp
  have hfatal (c : Cause) (w : Option Word) : p.same s (s.fatal c w) := frameBut_fatal [] s c w p (by simp [hhalt])
  rcases step_cases h with ⟨r, -, rfl⟩ | ⟨x, -, -, rfl⟩ | ⟨-, c, -, rfl⟩ | ⟨-, -, -, rfl⟩ | ⟨i, hi, he⟩
  · exact .inl (FrameBut.refl [] t p (by simp))
  · exact .inl (frameBut_pollKey s x p (by simp [hv, hpc, hawait, hprev]))
  · exact .inl (hfatal ..)
  · exact .inl (hfatal ..)
  · by_cases hw : p ∈ writtenParts i
    · exact .inr ⟨i, hi, hw⟩
    · exact .inl (exec_frame he p (by simp [hhalt, hw]))

/-! ## The timers (R143) -/

theorem eq_ldDtVx_of_dt_mem {i : Instr} (h : .dt ∈ writtenParts i) : ∃ x, i = .ldDtVx x := by
  cases i
  case ldDtVx x => exact ⟨x, rfl⟩
  all_goals simp [writtenParts] at h

theorem eq_ldStVx_of_st_mem {i : Instr} (h : .st ∈ writtenParts i) : ∃ x, i = .ldStVx x := by
  cases i
  case ldStVx x => exact ⟨x, rfl⟩
  all_goals simp [writtenParts] at h

/-- Settles O13: a poll and an error leave the timers, and each timer is a written part of one instruction. -/
theorem timersChangeOnlyByTheirInstructions : Obligations.TimersChangeOnlyByTheirInstructions := by
  intro s t
  refine ⟨fun hstep => ⟨?dt, ?st⟩, fun k b => ⟨s.setKey_dt k b, s.setKey_st k b⟩⟩
  case dt =>
    refine (step_same_or_executes (p := .dt) (by decide) hstep).imp_right fun ⟨i, hi, hw⟩ => ?_
    obtain ⟨x, rfl⟩ := eq_ldDtVx_of_dt_mem hw
    exact ⟨x, hi⟩
  case st =>
    refine (step_same_or_executes (p := .st) (by decide) hstep).imp_right fun ⟨i, hi, hw⟩ => ?_
    obtain ⟨x, rfl⟩ := eq_ldStVx_of_st_mem hw
    exact ⟨x, hi⟩

end Sys2Proof.Machine

/-! # Proofs about register and arithmetic instructions (41_arithmetic.md): the bits, the sums and the differences -/

namespace Sys2Proof.Machine

/-! ## The shared ending of a meaning: write the registers, then advance `PC` (R139, R160, R165) -/

section Ending
variable (s : State) (x : Reg) (r : Byte)

/-- All that a write of one register leaves behind. -/
theorem writeV_advance_spec :
    (s.writeV x r).advance.v[x] = r ∧ SameRegsBut x s (s.writeV x r).advance ∧
      (s.writeV x r).advance.pc = s.pc + 2#16 ∧ FrameBut [.v, .pc] s (s.writeV x r).advance :=
  ⟨(s.writeV_get x x r).trans (if_pos rfl), fun k hk => (s.writeV_get x k r).trans (if_neg hk), by simp,
    by simp [frameBut_iff]⟩

/-- All that a write of result and flag leaves behind, in either order of the two. -/
theorem writeWithFlag_advance_spec (f : Bool) :
    (∀ k : Reg, (s.writeWithFlag x r f).advance.v[k] = flaggedReg s x r f k) ∧
      (s.writeWithFlag x r f).advance.pc = s.pc + 2#16 ∧ FrameBut [.v, .pc] s (s.writeWithFlag x r f).advance :=
  ⟨fun k => s.writeWithFlag_get x k r f, by simp, by simp [frameBut_iff]⟩

/-- All that a logic result leaves behind, under either value of `P_LOGIC_VF`. -/
theorem logicResult_advance_spec :
    (∀ k : Reg, (s.logicResult x r).advance.v[k] = logicReg s x r k) ∧
      (s.logicResult x r).advance.pc = s.pc + 2#16 ∧ FrameBut [.v, .pc] s (s.logicResult x r).advance :=
  ⟨fun k => s.logicResult_get x k r, by simp, by simp [frameBut_iff]⟩

end Ending

/-! ## Sum and difference of bytes as numbers modulo 256 (R174, R175, R177) -/

theorem byte_add_eq_ofNat (a b : Byte) : a + b = BitVec.ofNat 8 ((a.toNat + b.toNat) % 256) := by
  apply BitVec.eq_of_toNat_eq
  rw [BitVec.toNat_add, BitVec.toNat_ofNat, Nat.mod_mod]

theorem byte_sub_eq_ofNat (a b : Byte) : a - b = BitVec.ofNat 8 ((a.toNat + 0x100 - b.toNat) % 256) := by
  apply BitVec.eq_of_toNat_eq
  have hb := b.isLt
  rw [BitVec.toNat_sub, BitVec.toNat_ofNat]
  omega

/-! ## The instructions -/

/-- Settles O18: its word is that of its row of R105, and its meaning is one register write and the advance. -/
theorem loadImmediateSetsRegister : Obligations.LoadImmediateSetsRegister := by
  intro x nn s
  exact ⟨Laws.TableRow.ldImm x nn rfl, decode_encode rfl, _, rfl, writeV_advance_spec s x nn⟩

/-- Settles O20: the three results are those of the word operations, which work bit by bit, and all three
instructions end in `logicResult`. -/
theorem logicOperationsWorkBitwise : Obligations.LogicOperationsWorkBitwise := by
  intro x y s
  refine ⟨s.v[x] ||| s.v[y], s.v[x] &&& s.v[y], s.v[x] ^^^ s.v[y],
    fun b _ => ⟨BitVec.getLsbD_or, BitVec.getLsbD_and, BitVec.getLsbD_xor⟩, ?_, ?_, ?_⟩
  all_goals exact ⟨_, rfl, logicResult_advance_spec s x _⟩

/-- Settles O21: the sum of the bytes is the sum of their values modulo 256, and the carry is the flag written. -/
theorem addRegistersSetsCarry : Obligations.AddRegistersSetsCarry := by
  intro x y s
  rw [← byte_add_eq_ofNat]
  exact ⟨_, rfl, writeWithFlag_advance_spec s x _ _⟩

/-- Settles O22: the difference of the bytes is that of their values modulo 256, and `SUBN` is `SUB` with minuend
and subtrahend exchanged. -/
theorem subtractionsSetNotBorrow : Obligations.SubtractionsSetNotBorrow := by
  intro x y s
  rw [← byte_sub_eq_ofNat, ← byte_sub_eq_ofNat]
  exact ⟨⟨_, rfl, writeWithFlag_advance_spec s x _ _⟩, ⟨_, rfl, writeWithFlag_advance_spec s x _ _⟩⟩

end Sys2Proof.Machine

/-! # Proofs about display instructions (42_display.md): who changes the display, what `DRAW` does on each side of its
check -/

namespace Sys2Proof.Machine

/-! ## Which instructions change the display (R200) -/

theorem eq_cls_or_draw_of_disp_mem {i : Instr} (h : .disp ∈ writtenParts i) :
    i = .cls ∨ ∃ x y n, i = .draw x y n := by
  cases i
  case cls => exact .inl rfl
  case draw x y n => exact .inr ⟨x, y, n, rfl⟩
  all_goals simp [writtenParts] at h

@[simp] theorem State.tick_disp (s : State) : s.tick.disp = s.disp := by
  unfold State.tick
  split <;> rfl

/-- Settles O15: a poll and an error leave the display, and it is a written part of two instructions. -/
theorem displayChangesOnlyByDisplayInstructions : Obligations.DisplayChangesOnlyByDisplayInstructions := by
  intro s t
  refine ⟨fun hstep => ?_, s.tick_disp, s.setKey_disp⟩
  refine (step_same_or_executes (p := .disp) (by decide) hstep).imp_right fun ⟨i, hi, hw⟩ => ?_
  obtain rfl | ⟨x, y, n, rfl⟩ := eq_cls_or_draw_of_disp_mem hw
  · exact .inl hi
  · exact .inr ⟨x, y, n, hi⟩

/-! ## The flag byte (R160, R205) -/

theorem flagByte_eq_one_or_zero (b : Bool) : flagByte b = 1#8 ∨ flagByte b = 0#8 := by
  cases b
  · exact .inr rfl
  · exact .inl rfl

theorem flagByte_eq_one_iff (b : Bool) : flagByte b = 1#8 ↔ b = true := by
  cases b <;> decide

/-! ## `DRAW` on each side of its check (R202 to R207) -/

section Draw
variable {s : State} {n : Fin 16}

theorem drawCheck_of_beyond (hn : n.val ≠ 0) (h : 0x1000 < s.i.toNat + n.val) :
    drawCheck s.i n.val = some { kind := .bounds, info := some (max s.i.toNat 0x1000) } := by
  rw [drawCheck, if_neg hn, checkRange_of_beyond (Nat.pos_of_ne_zero hn) h]

theorem drawCheck_of_inMemory (h : spriteInMemory s n) : drawCheck s.i n.val = none := by
  unfold drawCheck
  split
  case isTrue => rfl
  case isFalse hn => rw [checkRange_eq _ _ (Nat.pos_of_ne_zero hn), if_pos (h.resolve_left hn)]

theorem exec_draw_of_check {c : Cause} (x y : Reg) (h : drawCheck s.i n.val = some c) :
    exec (.draw x y n) s = .next (s.fatal c (some (encode (.draw x y n)))) := by
  simp only [exec, execDraw, h, raise]

/-- A `DRAW` that passes its check ends in two writes and the advance: the display XOR the sprite, and to `VF` whether
a covered pixel was on. -/
theorem exec_draw_of_inMemory (x y : Reg) (h : spriteInMemory s n) : ∃ (d : Display) (hit : Bool),
    exec (.draw x y n) s = .next ({ s with disp := d }.writeV flagReg (flagByte hit)).advance ∧
    (∀ (px : Fin 64) (py : Fin 32), d[px][py] =
      (s.disp[px][py] ^^ spriteCovers s.mem s.i.toNat (s.v[x]).toNat (s.v[y]).toNat n.val px py)) ∧
    (hit = true ↔ ∃ (px : Fin 64) (py : Fin 32),
      spriteCovers s.mem s.i.toNat (s.v[x]).toNat (s.v[y]).toNat n.val px py = true ∧ s.disp[px][py] = true) := by
  refine ⟨_, _, ?_, drawRows_spec s.mem s.i.toNat n.val n.isLt (s.readV x) (s.readV y) s.disp⟩
  simp only [exec, execDraw, drawCheck_of_inMemory h]

end Draw

/-- Settles O27: the state `DRAW` answers, read field by field. -/
theorem drawXorsTheSprite : Obligations.DrawXorsTheSprite := by
  intro x y n s hmem
  obtain ⟨d, hit, hexec, hpixel, hhit⟩ := exec_draw_of_inMemory x y hmem
  obtain ⟨hflag, hregs, hpc, -⟩ := writeV_advance_spec { s with disp := d } flagReg (flagByte hit)
  refine ⟨_, hexec, hpixel, ?one_or_zero, ?collision, hregs, hpc, ?frame⟩
  case one_or_zero => exact (flagByte_eq_one_or_zero hit).imp hflag.trans hflag.trans
  case collision => exact (Eq.congr_left hflag).trans ((flagByte_eq_one_iff hit).trans hhit)
  case frame => simp [frameBut_iff]

/-- Settles O28: the check fails, and `DRAW` raises its error before a pixel changes. -/
theorem drawBeyondMemoryIsFatal : Obligations.DrawBeyondMemoryIsFatal := by
  intro x y n s hn h
  exact exec_draw_of_check x y (drawCheck_of_beyond hn h)

end Sys2Proof.Machine

/-! # Proofs about control flow (43_control_flow.md): `CALL` and `RET` on each side of their check, the register skips -/

namespace Sys2Proof.Machine

/-! ## `CALL` and `RET` (R220, R222, R223) -/

theorem toNat_zextAddr (nnn : Addr12) : (zextAddr nnn).toNat = nnn.toNat :=
  BitVec.toNat_setWidth_of_le (by decide)

/-- The entry pushed is on top and every other entry is as before. -/
theorem stack_set_spec (stack : Vector Word 16) {d : Nat} (h : d < 16) (ret : Word) :
    (stack.set d ret)[d] = ret ∧ ∀ j : Fin 16, j.val ≠ d → (stack.set d ret)[j] = stack[j] :=
  ⟨Vector.getElem_set_self h, fun j hj => Vector.getElem_set_ne h j.isLt hj.symm⟩

/-- Settles O32: the two sides of the check; the push writes the one entry that comes into use. -/
theorem callPushesReturnAddress : Obligations.CallPushesReturnAddress := by
  intro nnn s
  refine ⟨fun hs => ?pushes, fun hs => ?overflows⟩
  case pushes =>
    obtain ⟨htop, hrest⟩ := stack_set_spec s.stack hs (s.pc + 2#16)
    exact ⟨_, execCall_of_lt nnn hs, rfl, htop, hrest, toNat_zextAddr nnn, by simp [frameBut_iff]⟩
  case overflows => exact execCall_of_full nnn hs

/-- Settles O33: the two sides of the check; the pop writes no entry. -/
theorem returnPopsReturnAddress : Obligations.ReturnPopsReturnAddress := by
  intro s
  refine ⟨fun hs => ?pops, fun hs => ?underflows⟩
  case pops => exact ⟨_, execRet_of_pos hs, rfl, rfl, rfl, by simp [frameBut_iff]⟩
  case underflows => exact execRet_of_empty hs

/-! ## The skips (R225 to R229) -/

/-- All that a skip leaves behind. -/
theorem skipIf_spec (s : State) (c : Bool) :
    (s.skipIf c).pc = (if c then s.pc + 4#16 else s.pc + 2#16) ∧ FrameBut [.pc] s (s.skipIf c) :=
  ⟨s.skipIf_pc c, by simp [frameBut_iff]⟩

/-- A skip on equality, as `SE` has it (R225, R227). -/
theorem skipIf_beq_spec (s : State) (a b : Byte) :
    (s.skipIf (a == b)).pc = (if a = b then s.pc + 4#16 else s.pc + 2#16) ∧ FrameBut [.pc] s (s.skipIf (a == b)) := by
  simpa only [beq_iff_eq] using skipIf_spec s (a == b)

/-- A skip on inequality, as `SNE` has it (R226, R228). -/
theorem skipIf_bne_spec (s : State) (a b : Byte) :
    (s.skipIf (a != b)).pc = (if a = b then s.pc + 2#16 else s.pc + 4#16) ∧ FrameBut [.pc] s (s.skipIf (a != b)) := by
  simpa only [bne_iff_ne, ite_not] using skipIf_spec s (a != b)

/-- Settles O35: each of the four is `skipIf` under its comparison, with `Vx` and `NN` or with `Vx` and `Vy`. -/
theorem skipsCompareRegisters : Obligations.SkipsCompareRegisters := by
  intro x y nn s
  exact ⟨⟨_, rfl, skipIf_beq_spec s s.v[x] nn⟩, ⟨_, rfl, skipIf_bne_spec s s.v[x] nn⟩,
    ⟨_, rfl, skipIf_beq_spec s s.v[x] s.v[y]⟩, ⟨_, rfl, skipIf_bne_spec s s.v[x] s.v[y]⟩⟩

end Sys2Proof.Machine

/-! # Proofs about keys and timers (44_keys_timers.md): the key skips -/

namespace Sys2Proof.Machine

/-! ## `SKP` and `SKNP` (R250 to R252) -/

/-- R252: the low nibble is the remainder by 16. -/
theorem keyNumber_val (b : Byte) : (keyNumber b).val = b.toNat % 16 := by
  simp [keyNumber]

/-- A skip on a cleared flag, as `SKNP` has it (R251). -/
theorem skipIf_not_spec (s : State) (c : Bool) :
    (s.skipIf (!c)).pc = (if c then s.pc + 2#16 else s.pc + 4#16) ∧ FrameBut [.pc] s (s.skipIf (!c)) := by
  simpa only [Bool.not_eq_true', ← Bool.not_eq_true, ite_not] using skipIf_spec s (!c)

/-- Settles O37: both are `skipIf` on the flag of the key that `Vx` names, `SKNP` on its negation. -/
theorem keySkipsTestTheNamedKey : Obligations.KeySkipsTestTheNamedKey := by
  intro x k s hk
  obtain rfl : k = keyNumber (s.readV x) := Fin.ext (hk.trans (keyNumber_val (s.readV x)).symm)
  exact ⟨⟨_, rfl, skipIf_spec s _⟩, ⟨_, rfl, skipIf_not_spec s _⟩⟩

end Sys2Proof.Machine

/-! # Proofs about the index register and memory (45_index_memory.md): the decimal store -/

namespace Sys2Proof.Machine

/-! ## A store whose bytes may be written (R79, R81, R284) -/

/-- Inside a run that lies in memory, each byte reads as the one written there. -/
theorem Memory.read_writeRun_inside {m : Memory} {base k : Nat} {bytes : List Byte} (h : m.wf = true)
    (hr : base + bytes.length ≤ Config.memSize) (hk : k < bytes.length) :
    (m.writeRun base bytes).read (base + k) = bytes[k] := by
  rw [Memory.read_writeRun h hr, if_pos (by omega), Nat.add_sub_cancel_left, List.getD_eq_getElem _ _ hk]

/-- All that a store of a run at `I` leaves behind: its bytes in place, the other bytes as they were, the advance. -/
theorem store_advance_spec {s : State} {bytes : List Byte} (hm : s.MemOk) (h : storeAllowed s bytes.length) :
    (∀ k, (hk : k < bytes.length) → (s.store s.i.toNat bytes).advance.mem.read (s.i.toNat + k) = bytes[k]) ∧
      SameMemoryOutside s.i.toNat bytes.length s (s.store s.i.toNat bytes).advance ∧
      (s.store s.i.toNat bytes).advance.pc = s.pc + 2#16 ∧
      FrameBut [.mem, .pc] s (s.store s.i.toNat bytes).advance :=
  ⟨fun _ hk => Memory.read_writeRun_inside hm h.1 hk, fun _ ha => Memory.read_writeRun_outside hm ha, by simp,
    by simp [frameBut_iff]⟩

/-! ## `LD B, Vx` (R283) -/

@[simp] theorem length_decimalDigits (b : Byte) : (decimalDigits b).length = 3 := rfl

/-- A digit fits a byte, and so do the hundreds of one. -/
theorem toNat_decimalDigits (b : Byte) : (decimalDigits b)[0].toNat = b.toNat / 100 ∧
    (decimalDigits b)[1].toNat = b.toNat / 10 % 10 ∧ (decimalDigits b)[2].toNat = b.toNat % 10 := by
  have hb := b.isLt
  refine ⟨?hundreds, ?tens, ?ones⟩
  all_goals exact Nat.mod_eq_of_lt (by omega)

theorem exec_ldB_of_storeAllowed {s : State} (x : Reg) (h : storeAllowed s 3) :
    exec (.ldB x) s = .next (s.store s.i.toNat (decimalDigits (s.readV x))).advance := by
  simp only [exec, execLdB, (checkWritable_none_iff s 3 (by decide)).mpr h]

/-- Settles O41: the check passes, and the run stored is the three digits, each the byte read at its place. -/
theorem decimalStoreWritesThreeDigits : Obligations.DecimalStoreWritesThreeDigits := by
  intro x s hm h
  obtain ⟨hread, hrest⟩ := store_advance_spec (bytes := decimalDigits (s.readV x)) hm h
  obtain ⟨hhundreds, htens, hones⟩ := toNat_decimalDigits (s.readV x)
  refine ⟨_, exec_ldB_of_storeAllowed x h, ?hundreds, ?tens, ?ones, hrest⟩
  case hundreds => exact (congrArg BitVec.toNat (hread 0 (by simp))).trans hhundreds
  case tens => exact (congrArg BitVec.toNat (hread 1 (by simp))).trans htens
  case ones => exact (congrArg BitVec.toNat (hread 2 (by simp))).trans hones

end Sys2Proof.Machine

/-! # Proofs about errors, timers and the host's transactions (60_exceptions.md): the fatal step, `TICK`, and the
invariants under every schedule -/

namespace Sys2Proof.Machine

/-! ## The fatal step (R316, R318) -/

/-- Everything a step that halts a running engine has done: record one error, with the fetched word where there was
a fetch (R311). -/
theorem step_fatal_cases {s t : State} {r : FatalRecord} (hh : s.halt = none) (hstep : step s = .next t)
    (hr : t.halt = some r) :
    running s ∧ ∃ c w, c.kind ≠ .load ∧ t = s.fatal c w ∧
      (fetchable s ∧ w = some (opcodeAt s) ∨ ¬ fetchable s ∧ w = none) := by
  rcases step_cases hstep with ⟨r', hr', -⟩ | ⟨x, -, -, rfl⟩ | ⟨hrun, c, hc, rfl⟩ | ⟨hrun, hf, -, rfl⟩ | ⟨i, hi, he⟩
  · rw [hh] at hr'
    cases hr'
  · have hkept : (s.pollKey x).halt = s.halt := frameBut_pollKey s x .halt (by decide)
    rw [hkept, hh] at hr
    cases hr
  · have hf : ¬ fetchable s := by simp [← fetchCheck_none_iff, hc]
    exact ⟨hrun, c, none, fetchCheck_kind hc, rfl, .inr ⟨hf, rfl⟩⟩
  · exact ⟨hrun, _, _, by decide, rfl, .inl ⟨hf, rfl⟩⟩
  · obtain ⟨hrun, hf, hd⟩ := hi
    obtain ⟨c, hc, rfl⟩ | ⟨hkept, -, -⟩ := exec_cases he
    · exact ⟨hrun, c, _, hc, rfl, .inl ⟨hf, congrArg some (encode_of_decode hd).1⟩⟩
    · rw [hkept, hh] at hr
      cases hr

/-- Settles O11: the state a fatal step leaves is `fatal` of the state before it, read field by field. -/
theorem fatalStepRollsBack : Obligations.FatalStepRollsBack := by
  intro s t r hh hstep hr
  obtain ⟨-, c, w, hkind, rfl, hw⟩ := step_fatal_cases hh hstep hr
  cases hr
  refine ⟨rfl, rfl, rfl, hkind, ?_⟩
  obtain ⟨hf, rfl⟩ | ⟨hf, rfl⟩ := hw
  · exact (if_pos hf).symm
  · exact (if_neg hf).symm

/-! ## The timer instructions (R258 to R260, R334) -/

/-- R334, with the byte as a number. -/
theorem State.tone_eq (s : State) : s.tone = decide (s.st.toNat ≠ 0) := by
  rw [Bool.eq_iff_iff]
  simp [State.tone, ← BitVec.toNat_inj]

/-- Settles O39: one byte moved and the advance. -/
theorem timerInstructionsMoveBytes : Obligations.TimerInstructionsMoveBytes := by
  intro x s
  refine ⟨⟨_, rfl, writeV_advance_spec s x s.dt⟩, ⟨_, rfl, rfl, rfl, ?dt⟩, ⟨_, rfl, rfl, State.tone_eq _, rfl, ?st⟩⟩
  case dt | st => simp [frameBut_iff]

/-! ## `TICK` (R317, R325) -/

theorem State.tick_of_halted {s : State} (hh : s.halt ≠ none) : s.tick = s := by
  obtain ⟨r, hr⟩ := Option.ne_none_iff_exists'.mp hh
  rw [State.tick, hr]

theorem State.tick_of_not_halted {s : State} (hh : s.halt = none) :
    s.tick = { s with dt := tickTimer s.dt, st := tickTimer s.st } := by
  rw [State.tick, hh]

/-- The floor at 0 is that of subtraction on numbers. -/
theorem toNat_tickTimer (b : Byte) : (tickTimer b).toNat = b.toNat - 1 := by
  unfold tickTimer
  split
  case isTrue hb => rw [hb]; rfl
  case isFalse hb => bv_omega

/-- Settles O46: halted or not decides the branch, and each timer goes down as its number does. -/
theorem tickDecrementsTimers : Obligations.TickDecrementsTimers := by
  intro s
  refine ⟨fun hh => ?_, State.tick_of_halted⟩
  rw [State.tick_of_not_halted hh]
  exact ⟨toNat_tickTimer s.dt, toNat_tickTimer s.st, by simp [frameBut_iff]⟩

/-! ## `STEP` keeps each invariant -/

theorem step_keeps_memOk {s t : State} (hs : s.MemOk) (hstep : step s = .next t) : t.MemOk := by
  unfold State.MemOk
  rcases step_mem_cases hstep with hsame | ⟨i, bytes, -, -, -, hmem⟩
  · rw [hsame]
    exact hs
  · rw [hmem]
    exact Memory.wf_writeRun hs

theorem step_keeps_haltOk {s t : State} (hs : s.HaltOk) (hstep : step s = .next t) : t.HaltOk := by
  intro r hr
  cases hh : s.halt with
  | none =>
    obtain ⟨hrun, c, w, hkind, rfl, -⟩ := step_fatal_cases hh hstep hr
    cases hr
    exact ⟨rfl, hkind, hrun.2⟩
  | some r' =>
    rw [step_of_halted hh] at hstep
    cases hstep
    exact hs r hr

/-! ### `PC` and the return addresses (R35) -/

/-- Whatever can be fetched lies low enough for the advance and a skip to stay in range. -/
theorem fetchable.toNat_pc_add_le {s : State} (hf : fetchable s) {d : Word} (hd : d.toNat ≤ 4) :
    (s.pc + d).toNat ≤ 0xFFE + d.toNat := by
  obtain ⟨hpc, -⟩ := hf
  rw [BitVec.toNat_add]
  omega

theorem State.PcOk.of_stack_same {s t : State} (hs : s.PcOk) (hstack : t.sp = s.sp ∧ t.stack = s.stack)
    (hpc : t.pc.toNat ≤ 0x10FE) : t.PcOk := by
  obtain ⟨hsp, hst⟩ := hstack
  refine ⟨hpc, ?_⟩
  rw [hsp, hst]
  exact hs.2

theorem State.PcOk.fatal {s : State} (hs : s.PcOk) (c : Cause) (w : Option Word) : (s.fatal c w).PcOk :=
  hs.of_stack_same ⟨rfl, rfl⟩ hs.1

/-- A poll moves `PC` only past the instruction it stands at. -/
theorem State.PcOk.pollKey {s : State} (hs : s.PcOk) (hf : fetchable s) (x : Reg) : (s.pollKey x).PcOk := by
  have hadvance : (s.pc + 2#16).toNat ≤ 0x1000 := hf.toNat_pc_add_le (by decide)
  rcases s.pollKey_cases x with ⟨k, -, hp⟩ | ⟨-, -, hp⟩ | ⟨-, -, hp⟩ <;> rw [hp]
  · exact hs.of_stack_same ⟨rfl, rfl⟩ (hadvance.trans (by decide))
  · exact hs
  · exact hs

theorem toNat_zextAddr_le (nnn : Addr12) : (zextAddr nnn).toNat ≤ 0xFFF := by
  rw [toNat_zextAddr]
  exact Nat.le_of_lt_succ nnn.isLt

/-- `CALL` goes to a 12-bit address and pushes the address after its own. -/
theorem State.PcOk.of_exec_call {s t : State} {nnn : Addr12} (hs : s.PcOk) (hf : fetchable s)
    (h : exec (.call nnn) s = .next t) : t.PcOk := by
  by_cases hsp : s.sp.val < 16
  · rw [exec, execCall_of_lt nnn hsp] at h
    cases h
    obtain ⟨htop, hrest⟩ := stack_set_spec s.stack hsp (s.pc + 2#16)
    refine ⟨?pc, fun j hj => ?entry⟩
    case pc => exact (toNat_zextAddr_le nnn).trans (by decide)
    case entry =>
      simp only at hj ⊢
      by_cases hjsp : j.val = s.sp.val
      · have : (s.pc + 2#16).toNat ≤ 0x1000 := hf.toNat_pc_add_le (by decide)
        simpa [hjsp] using this
      · rw [hrest j hjsp]
        exact hs.2 j (by omega)
  · rw [exec, execCall_of_full nnn (by omega)] at h
    cases h
    exact hs.fatal _ _

/-- `RET` goes to an entry in use, and the entries still in use were so before. -/
theorem State.PcOk.of_exec_ret {s t : State} (hs : s.PcOk) (h : exec .ret s = .next t) : t.PcOk := by
  obtain hsp | hsp := Nat.eq_zero_or_pos s.sp.val
  · rw [exec, execRet_of_empty hsp] at h
    cases h
    exact hs.fatal _ _
  · rw [exec, execRet_of_pos hsp] at h
    cases h
    have htop := hs.2 ⟨s.sp.val - 1, by omega⟩ (by simp only; omega)
    refine ⟨htop.trans (by decide), fun j hj => hs.2 j ?_⟩
    simp only at hj
    omega

/-- The largest target of `JP V0, NNN` is 0xFFF + 0xFF. -/
theorem toNat_zextAddr_add_zextByte_le (nnn : Addr12) (b : Byte) : (zextAddr nnn + zextByte b).toNat ≤ 0x10FE := by
  have hnnn := toNat_zextAddr_le nnn
  have hb := b.isLt
  rw [BitVec.toNat_add, zextByte, BitVec.toNat_setWidth_of_le (by decide)]
  omega

/-- The bound of R35, for the instructions that steer `PC` one kind of target at a time. -/
theorem exec_pc_le {i : Instr} {s t : State} (hs : s.PcOk) (hf : fetchable s) (h : exec i s = .next t) :
    t.pc.toNat ≤ 0x10FE := by
  have hadvance : (s.pc + 2#16).toNat ≤ 0x1000 := hf.toNat_pc_add_le (by decide)
  have hskip : (s.pc + 4#16).toNat ≤ 0x1002 := hf.toNat_pc_add_le (by decide)
  cases hi : steersPc i with
  | false =>
    obtain hpc | ⟨c, rfl⟩ := exec_pc_cases hi h
    · rw [hpc]
      omega
    · exact hs.1
  | true =>
    cases i
    case call => exact (hs.of_exec_call hf h).1
    case ret => exact (hs.of_exec_ret h).1
    case sys => cases h; exact hs.1
    case jp nnn => cases h; exact (toNat_zextAddr_le nnn).trans (by decide)
    case jpV0 nnn => cases h; exact toNat_zextAddr_add_zextByte_le nnn _
    case ldVxK =>
      obtain ⟨k, rfl⟩ | ⟨prev, rfl⟩ := exec_ldVxK_cases h
      · exact hadvance.trans (by decide)
      · exact hs.1
    case seImm | sneImm | seReg | sneReg | skp | sknp =>
      cases h
      obtain hpc | hpc := s.skipIf_pc_cases _ <;> rw [hpc] <;> omega
    all_goals cases hi

theorem State.PcOk.of_exec {i : Instr} {s t : State} (hs : s.PcOk) (hf : fetchable s) (h : exec i s = .next t) :
    t.PcOk := by
  rcases exec_stack_cases h with hstack | ⟨nnn, rfl⟩ | rfl
  · exact hs.of_stack_same hstack (exec_pc_le hs hf h)
  · exact hs.of_exec_call hf h
  · exact hs.of_exec_ret h

/-- A waiting engine stands at an instruction it has fetched, so its poll ends in range. -/
theorem step_keeps_pcOk {s t : State} (hw : s.WaitOk) (hs : s.PcOk) (hstep : step s = .next t) : t.PcOk := by
  rcases step_cases hstep with ⟨r, -, rfl⟩ | ⟨x, -, ha, rfl⟩ | ⟨-, c, -, rfl⟩ | ⟨-, -, -, rfl⟩ | ⟨i, hi, he⟩
  · exact hs
  · obtain ⟨-, hf, -⟩ := hw x ha
    exact hs.pollKey hf x
  · exact hs.fatal _ _
  · exact hs.fatal _ _
  · obtain ⟨-, hf, -⟩ := hi
    exact hs.of_exec hf he

/-! ## Every transaction keeps all of them -/

theorem step_keeps_inv {s t : State} (hs : s.Inv) (hstep : step s = .next t) : t.Inv := by
  obtain ⟨hmem, hwait, hhalt, hpc, hreserved⟩ := hs
  exact ⟨step_keeps_memOk hmem hstep, stepKeepsWaitAtItsInstruction s t hwait hstep, step_keeps_haltOk hhalt hstep,
    step_keeps_pcOk hwait hpc hstep, stepKeepsReservedArea s t hmem hreserved hstep⟩

/-- No invariant speaks of the timers or the latch. -/
theorem State.Inv.update {s : State} (hs : s.Inv) (dt st : Byte) (key : Vector Bool 16) :
    ({ s with dt := dt, st := st, key := key } : State).Inv := hs

theorem State.Inv.tick {s : State} (hs : s.Inv) : s.tick.Inv := by
  by_cases hh : s.halt = none
  · rw [State.tick_of_not_halted hh]
    exact hs.update _ _ s.key
  · rw [State.tick_of_halted hh]
    exact hs

/-! ### `RESET` (R350 to R354) -/

theorem wf_bootMemory (font : Vector Byte Config.fontSize) (rom : List Byte) : (bootMemory font rom).wf = true :=
  Memory.wf_writeRun (Memory.wf_writeRun rfl)

/-- Below the ROM stand the font and zeros: the font overwrites all of the default one that an unlisted byte reads as. -/
theorem read_bootMemory_of_lt (font : Vector Byte Config.fontSize) (rom : List Byte) {a : Nat} (ha : a < 0x200) :
    (bootMemory font rom).read a = fontByte font a := by
  have hlen : font.toList.length = 80 := by simp
  have hfont := Memory.read_writeRun (m := []) (base := 0) (bytes := font.toList) rfl (by rw [hlen]; decide) a
  rw [bootMemory, Memory.read_writeRun_outside (Memory.wf_writeRun rfl) (.inl ha), hfont]
  split
  case isTrue => rfl
  case isFalse h =>
    have h80 : 80 ≤ a := by omega
    rw [Memory.read, unlistedByte_of_le h80]
    simp [fontByte, h80]

theorem State.reset_pcOk : State.reset.PcOk :=
  ⟨by decide, nofun⟩

/-- What `RESET` with a ROM that fits leaves of the machine before it: the parameters and the draw counter. -/
theorem eq_of_load_eq_next {s t : State} {rom : List Byte} (h : s.load rom = .next t) :
    t = { State.reset with mem := bootMemory s.params.font rom, params := s.params, draws := s.draws } := by
  unfold State.load at h
  split at h <;> cases h
  rfl

theorem load_inv {s t : State} {rom : List Byte} (h : s.load rom = .next t) : t.Inv := by
  obtain rfl := eq_of_load_eq_next h
  exact ⟨wf_bootMemory _ rom, State.waitOk_of_await_none rfl, nofun, State.reset_pcOk,
    fun _ _ ha => read_bootMemory_of_lt _ rom ha⟩

/-! ### Schedules (R12, R335) -/

theorem transact_keeps_inv {s t : State} {x : Transaction} (hs : s.Inv) (h : transact s x = .next t) : t.Inv := by
  cases x with
  | reset rom => exact load_inv h
  | step => exact step_keeps_inv hs h
  | tick => cases h; exact hs.tick
  | key k pressed => cases h; exact hs.update s.dt s.st _

/-- What every transaction keeps, every schedule keeps. -/
theorem runSchedule_induction {P : State → Prop}
    (hP : ∀ {s t : State} {x : Transaction}, P s → transact s x = .next t → P t) (schedule : List Transaction) :
    ∀ {s t : State}, P s → runSchedule schedule s = .next t → P t := by
  induction schedule with
  | nil => intro s t hs h; cases h; exact hs
  | cons x rest ih =>
    intro s t hs h
    rw [runSchedule] at h
    split at h
    case h_1 u hu => exact ih (hP hs hu) h
    all_goals cases h

/-- Settles O57: induction over the schedule, each transaction by its own rule. -/
theorem everyScheduleKeepsTheInvariants : Obligations.EveryScheduleKeepsTheInvariants :=
  fun schedule _ _ hs h => runSchedule_induction transact_keeps_inv schedule hs h

end Sys2Proof.Machine

/-! # Proofs about `RESET` (70_reset_and_hazards.md R350 to R357): what it leaves in memory, and the longest ROM -/

namespace Sys2Proof.Machine

/-! ## Memory after `RESET` (R351, R352, R354); below the ROM `read_bootMemory_of_lt` says it -/

section BootMemory
variable (font : Vector Byte Config.fontSize) {rom : List Byte}

theorem fontByte_of_lt {a : Nat} (ha : a < Config.fontSize) : fontByte font a = font[a] := by
  simp [fontByte, ha]

theorem fontByte_of_le {a : Nat} (ha : Config.fontSize ≤ a) : fontByte font a = 0x00#8 := by
  simp [fontByte, ha]

theorem read_bootMemory_rom (hrom : rom.length ≤ Config.maxRom) {k : Nat} (hk : k < rom.length) :
    (bootMemory font rom).read (Config.programBase + k) = rom[k] :=
  Memory.read_writeRun_inside (Memory.wf_writeRun rfl) (Nat.add_le_add_left hrom Config.programBase) hk

/-- Above the ROM nothing is listed: neither run reaches there. -/
theorem read_bootMemory_of_ge {a : Nat} (ha : Config.programBase + rom.length ≤ a) :
    (bootMemory font rom).read a = 0x00#8 := by
  have h80 : 80 ≤ a := Nat.le_trans (by decide) (Nat.le_of_add_right_le ha)
  have hfont : 0 + font.toList.length ≤ a := by simpa using h80
  calc (bootMemory font rom).read a
      = (Memory.writeRun [] 0 font.toList).read a := Memory.read_writeRun_outside (Memory.wf_writeRun rfl) (.inr ha)
    _ = unlistedByte a := Memory.read_writeRun_outside rfl (.inr hfont)
    _ = 0x00#8 := unlistedByte_of_le h80

end BootMemory

/-! ## The machine `RESET` answers (R350, R353) -/

/-- The machine that `RESET` answers for a ROM that fits (`load_of_le`). -/
def State.boot (s : State) (rom : List Byte) : State :=
  { State.reset with mem := bootMemory s.params.font rom, params := s.params, draws := s.draws }

section Load
variable (s : State) {rom : List Byte}

theorem load_of_le (hrom : rom.length ≤ Config.maxRom) : s.load rom = .next (s.boot rom) :=
  if_neg (Nat.not_lt.mpr hrom)

theorem load_of_gt (hrom : rom.length > Config.maxRom) : s.load rom = .fault (.load rom.length) :=
  if_pos hrom

theorem frameBut_boot : FrameBut [.mem, .params, .draws] State.reset (s.boot rom) := by
  simp [frameBut_iff, State.boot]

/-- A fresh machine is ready to fetch: 0x200 is even and inside memory. -/
theorem fetchable_boot : fetchable (s.boot rom) := by
  have hpc : (s.boot rom).pc.toNat = 0x200 := rfl
  exact ⟨by rw [hpc]; decide, .inl (by rw [hpc])⟩

theorem opcodeAt_boot_nil : opcodeAt (s.boot []) = 0x0000#16 := by
  have hzero {a : Nat} (ha : 0x200 ≤ a) : (s.boot []).mem.read a = 0x00#8 := read_bootMemory_of_ge _ ha
  calc opcodeAt (s.boot [])
      = joinBytes ((s.boot []).mem.read 0x200) ((s.boot []).mem.read 0x201) := (fetchWord_eq _).symm
    _ = 0x0000#16 := by rw [hzero (by decide), hzero (by decide)]; rfl

/-- With an empty ROM the first step executes a `SYS`, which is the decode error (R239). -/
theorem step_boot_nil :
    step (s.boot []) = .next ((s.boot []).fatal { kind := .decode, info := none } (some 0x0000#16)) := by
  have hsys : executes (s.boot []) (.sys 0x000#12) :=
    ⟨⟨rfl, rfl⟩, fetchable_boot s, by rw [opcodeAt_boot_nil]; rfl⟩
  rw [step_of_executes hsys]
  rfl

end Load

/-- Settles O48: each range of addresses by its rule about `bootMemory`; nothing else of the old machine is left. -/
theorem resetBuildsAFreshMachine : Obligations.ResetBuildsAFreshMachine := by
  intro s rom hrom
  refine ⟨_, load_of_le s hrom, wf_bootMemory _ rom, fun a ha => ?font, fun a ha ha' => ?gap,
    fun k hk => read_bootMemory_rom _ hrom hk, fun a ha => read_bootMemory_of_ge _ ha, rfl, rfl, frameBut_boot s⟩
  case font => exact (read_bootMemory_of_lt _ rom (Nat.lt_trans ha (by decide))).trans (fontByte_of_lt _ ha)
  case gap => exact (read_bootMemory_of_lt _ rom ha').trans (fontByte_of_le _ ha)

/-- Settles O49: the check of the length, and the first step on the zeros an empty ROM leaves at 0x200. -/
theorem romSizeIsChecked : Obligations.RomSizeIsChecked := by
  intro s rom
  refine ⟨fun hlong => ⟨load_of_gt s hlong, rfl⟩, fun hrom => ⟨_, load_of_le s hrom, fun _ k hk => ?full⟩, ?empty⟩
  case full => exact read_bootMemory_rom _ hrom hk
  case empty => exact ⟨_, _, load_of_le s (Nat.zero_le _), step_boot_nil s, rfl⟩

end Sys2Proof.Machine

/-! # Proofs about the invariants (10_state.md): each is kept by `STEP`, and reset meets all of them -/

namespace Sys2Proof.Machine

/-- Settles O51: the only memory a step can leave is the one before it or a run written into it. -/
theorem stepKeepsMemoryCanonical : Obligations.StepKeepsMemoryCanonical :=
  fun _ _ => step_keeps_memOk

/-- Settles O53: a step from a running engine records its error at `PC` and does not wait; a halted engine stays. -/
theorem stepKeepsFatalRecordPrecise : Obligations.StepKeepsFatalRecordPrecise :=
  fun _ _ => step_keeps_haltOk

/-- Settles O54: what is fetched, or waited at, lies at most at 0xFFE, and no kind of target lies above 0x10FE. -/
theorem stepKeepsPcInRange : Obligations.StepKeepsPcInRange :=
  fun _ _ => step_keeps_pcOk

/-- Settles O56: reset lists no byte, waits for no key, holds no record and no return address. -/
theorem resetMeetsTheInvariants : Obligations.ResetMeetsTheInvariants :=
  ⟨rfl, State.waitOk_of_await_none rfl, nofun, State.reset_pcOk, fun _ _ _ => rfl⟩

end Sys2Proof.Machine

/-! # Proofs about decoding (30_encoding.md R105, R107): written-out words, and which words are rejected -/

namespace Sys2Proof

/-! ## The words each family rejects -/

section Rejected
variable {w : Word} {e : DecodeError}

theorem decodeFamily8_eq_error_iff :
    decodeFamily8 w = .error e ↔ w.toNat % 16 ∈ [8, 9, 10, 11, 12, 13, 15] ∧ e = .family8 := by
  have hn := toNat_fieldN w
  unfold decodeFamily8
  split
  case h_10 =>
    have hlt := (fieldN w).isLt
    simp only [imp_false, ← BitVec.toNat_inj, BitVec.toNat_ofNat] at *
    have hmem : w.toNat % 16 ∈ [8, 9, 10, 11, 12, 13, 15] := by
      simp only [List.mem_cons, List.not_mem_nil, or_false]
      omega
    simp [hmem, eq_comm]
  all_goals
    rw [‹fieldN w = _›] at hn
    simp [← hn]

theorem decodeFamilyE_eq_error_iff :
    decodeFamilyE w = .error e ↔ w.toNat % 256 ∉ [0x9E, 0xA1] ∧ e = .familyE := by
  have hnn := toNat_fieldNN w
  unfold decodeFamilyE
  split
  case h_3 =>
    simp only [imp_false, ← BitVec.toNat_inj, BitVec.toNat_ofNat] at *
    have hmem : w.toNat % 256 ∉ [0x9E, 0xA1] := by
      simp only [List.mem_cons, List.not_mem_nil, or_false]
      omega
    simp [hmem, eq_comm]
  all_goals
    rw [‹fieldNN w = _›] at hnn
    simp [← hnn]

theorem decodeFamilyF_eq_error_iff :
    decodeFamilyF w = .error e ↔
      w.toNat % 256 ∉ [0x07, 0x0A, 0x15, 0x18, 0x1E, 0x29, 0x33, 0x55, 0x65] ∧ e = .familyF := by
  have hnn := toNat_fieldNN w
  unfold decodeFamilyF
  split
  case h_10 =>
    simp only [imp_false, ← BitVec.toNat_inj, BitVec.toNat_ofNat] at *
    have hmem : w.toNat % 256 ∉ [0x07, 0x0A, 0x15, 0x18, 0x1E, 0x29, 0x33, 0x55, 0x65] := by
      simp only [List.mem_cons, List.not_mem_nil, or_false]
      omega
    simp [hmem, eq_comm]
  all_goals
    rw [‹fieldNN w = _›] at hnn
    simp [← hnn]

/-! ## The whole map -/

/-- R107's table, row by row; a word of any other family, or with a listed selector, is not rejected. -/
theorem decode_eq_error_iff : decode w = .error e ↔
    (w.toNat / 4096 = 5 ∧ w.toNat % 16 ≠ 0 ∧ e = .family5) ∨
    (w.toNat / 4096 = 8 ∧ w.toNat % 16 ∈ [8, 9, 10, 11, 12, 13, 15] ∧ e = .family8) ∨
    (w.toNat / 4096 = 9 ∧ w.toNat % 16 ≠ 0 ∧ e = .family9) ∨
    (w.toNat / 4096 = 14 ∧ w.toNat % 256 ∉ [0x9E, 0xA1] ∧ e = .familyE) ∨
    (w.toNat / 4096 = 15 ∧ w.toNat % 256 ∉ [0x07, 0x0A, 0x15, 0x18, 0x1E, 0x29, 0x33, 0x55, 0x65] ∧
      e = .familyF) := by
  have hop := toNat_fieldN3 w
  have hn : fieldN w = 0x0#4 ↔ w.toNat % 16 = 0 := by rw [← BitVec.toNat_inj, toNat_fieldN]; rfl
  unfold decode
  split
  case h_16 => -- the decoder's last row: none of the other 15 families
    have hop15 : w.toNat / 4096 = 15 := by
      simp only [imp_false] at *
      bv_omega
    simp [decodeFamilyF_eq_error_iff, hop15]
  case h_6 | h_10 =>
    rw [‹fieldN3 w = _›] at hop
    split_ifs with h0 <;> simp [← hop, ← hn, h0, eq_comm]
  all_goals
    rw [‹fieldN3 w = _›] at hop
    simp [← hop, decodeFamily8_eq_error_iff, decodeFamilyE_eq_error_iff]

end Rejected

/-- `SYS` is the only row whose words are those of family 0, and two of these have rows of their own (R239). -/
theorem decode_eq_sys_iff (w : Word) :
    (∃ nnn, decode w = .ok (.sys nnn)) ↔ w.toNat / 4096 = 0 ∧ w.toNat ≠ 0x00E0 ∧ w.toNat ≠ 0x00EE := by
  constructor
  · rintro ⟨nnn, h⟩
    obtain ⟨rfl, hwf⟩ := encode_of_decode h
    have hlt := nnn.isLt
    have hnat : (encode (.sys nnn)).toNat = 4096 * 0 + nnn.toNat := toNat_encodeNNN 0x0#4 nnn
    simp only [Instr.wellFormed, Bool.and_eq_true, bne_iff_ne, ne_eq, ← BitVec.toNat_inj, BitVec.toNat_ofNat] at hwf
    omega
  · rintro ⟨hop, hcls, hret⟩
    have hop : fieldN3 w = 0x0#4 := BitVec.eq_of_toNat_eq ((toNat_fieldN3 w).trans hop)
    have hcls : w ≠ 0x00E0#16 := fun h => hcls (h ▸ rfl)
    have hret : w ≠ 0x00EE#16 := fun h => hret (h ▸ rfl)
    exact ⟨fieldNNN w, by simp only [decode, hop, decodeFamily0, if_neg hcls, if_neg hret]⟩

end Sys2Proof

namespace Sys2Proof.Machine

/-- Settles O1: the decoder, run on each of the twelve words. -/
theorem decodesWrittenOutWords : Obligations.DecodesWrittenOutWords :=
  ⟨rfl, rfl, rfl, rfl, rfl, rfl, rfl, rfl, rfl, rfl, rfl, rfl⟩

/-- Settles O4: each name of a rejection stands in one row of the table, and no row has the name `tooShort`. -/
theorem unmappedWordsAreTheListedOnes : Obligations.UnmappedWordsAreTheListedOnes := by
  intro w
  refine ⟨?_, ?_, ?_, ?_, ?_, ?_, decode_eq_sys_iff w⟩ <;> simp [decode_eq_error_iff]

end Sys2Proof.Machine

/-! # Proofs about which registers an instruction writes (10_state.md R32) -/

namespace Sys2Proof.Machine

section RegisterWrites
variable {s t : State} {i : Instr} {k : Reg}

/-- A register is as before where the registers are no written part of the instruction. -/
theorem exec_keeps_register (hi : .v ∉ writtenParts i) (h : exec i s = .next t) : t.v[k] = s.v[k] := by
  have hv : t.v = s.v := exec_frame h .v (by simp [hi])
  rw [hv]

theorem flaggedReg_of_ne {x : Reg} (hx : k ≠ x) (hf : k ≠ 15) (r : Byte) (f : Bool) :
    flaggedReg s x r f k = s.v[k] := by
  simp [flaggedReg, hx, hf]

theorem logicReg_of_not_written {x : Reg} (hx : k ≠ x) (hf : ¬ (k = 15 ∧ s.params.logicVf = .zero)) (r : Byte) :
    logicReg s x r k = s.v[k] := by
  by_cases hz : s.params.logicVf = .zero
  · rw [logicReg, if_pos hz, flaggedReg_of_ne hx (fun h15 => hf ⟨h15, hz⟩)]
  · rw [logicReg, if_neg hz, if_neg hx]

end RegisterWrites

/-- Settles O17: the writers of registers by their endings, and every other instruction by its frame. -/
theorem registerWritesFollowTheTable : Obligations.RegisterWritesFollowTheTable := by
  intro i s t k h hk
  cases i
  case ldImm x _ | addImm x _ | ldReg x _ | rnd x _ | ldVxDt x =>
    cases h
    exact (s.writeV_get x k _).trans (if_neg hk)
  case addReg x _ | subReg x _ | shr x _ | subn x _ | shl x _ =>
    cases h
    obtain ⟨hx, hf⟩ := not_or.mp hk
    exact (s.writeWithFlag_get x k _ _).trans (flaggedReg_of_ne hx hf _ _)
  case orReg x _ | andReg x _ | xorReg x _ =>
    cases h
    obtain ⟨hx, hf⟩ := not_or.mp hk
    exact (s.logicResult_get x k _).trans (logicReg_of_not_written hx hf _)
  case draw =>
    simp only [exec, execDraw] at h
    split at h <;> cases h
    case h_1 => rfl
    case h_2 => exact (State.writeV_get _ flagReg k _).trans (if_neg hk)
  case ldVxK x =>
    obtain ⟨key, rfl⟩ | ⟨prev, rfl⟩ := exec_ldVxK_cases h
    · exact (s.writeV_get x k _).trans (if_neg hk)
    · rfl
  case ldVxMem x =>
    simp only [exec, execLdVxMem] at h
    split at h <;> cases h
    case h_1 => rfl
    case h_2 => exact (s.loadRegs_get _ x k).trans (if_neg hk)
  all_goals exact exec_keeps_register (by simp [writtenParts]) h

end Sys2Proof.Machine

/-! # Proofs about register and arithmetic instructions (41_arithmetic.md): copies, shifts, the random byte, the order
of result and flag -/

namespace Sys2Proof.Machine

/-- Settles O19: one register write and the advance, of the sum and of the copied byte. -/
theorem addImmediateAndCopySetRegister : Obligations.AddImmediateAndCopySetRegister := by
  intro x y nn s
  obtain ⟨hsum, hrest⟩ := writeV_advance_spec s x (s.v[x] + nn)
  exact ⟨⟨_, rfl, by rw [← BitVec.toNat_add]; exact congrArg BitVec.toNat hsum, hrest⟩,
    ⟨_, rfl, writeV_advance_spec s x s.v[y]⟩⟩

/-! ## Shifts (R176, R179) -/

theorem shiftRight_one_eq_ofNat (b : Byte) : b >>> 1 = BitVec.ofNat 8 (b.toNat / 2) := by
  apply BitVec.eq_of_toNat_eq
  have hb := b.isLt
  rw [BitVec.toNat_ushiftRight, BitVec.toNat_ofNat, Nat.shiftRight_eq_div_pow]
  omega

theorem shiftLeft_one_eq_ofNat (b : Byte) : b <<< 1 = BitVec.ofNat 8 (b.toNat * 2 % 256) := by
  apply BitVec.eq_of_toNat_eq
  rw [BitVec.toNat_shiftLeft, BitVec.toNat_ofNat, Nat.shiftLeft_eq, Nat.mod_mod]

theorem lowBitOut_eq (b : Byte) : lowBitOut b = decide (b.toNat % 2 = 1) := by
  rw [lowBitOut, BitVec.getLsbD, Nat.testBit_zero]

theorem highBitOut_eq (b : Byte) : highBitOut b = decide (b.toNat / 128 = 1) := by
  have hb := b.isLt
  rw [highBitOut, BitVec.getLsbD, Nat.testBit_eq_decide_div_mod_eq, decide_eq_decide]
  omega

theorem readV_shiftSource (s : State) (x y : Reg) :
    s.readV (shiftSource s.params x y) = if s.params.shiftSrc = .vx then s.v[x] else s.v[y] := by
  unfold shiftSource
  cases s.params.shiftSrc <;> rfl

/-- Settles O23: result and flag as numbers, written as `writeWithFlag` writes them. -/
theorem shiftsSetBitShiftedOut : Obligations.ShiftsSetBitShiftedOut := by
  intro x y s src hsrc
  obtain rfl := hsrc.trans (readV_shiftSource s x y).symm
  rw [← shiftRight_one_eq_ofNat, ← shiftLeft_one_eq_ofNat, ← lowBitOut_eq, ← highBitOut_eq]
  exact ⟨⟨_, rfl, writeWithFlag_advance_spec s x _ _⟩, ⟨_, rfl, writeWithFlag_advance_spec s x _ _⟩⟩

/-- Settles O24: the byte written is the conjunction, bit by bit, whatever the draw is. -/
theorem randomByteIsMasked : Obligations.RandomByteIsMasked := by
  intro x nn s
  obtain ⟨hbyte, hregs, hpc, -⟩ := writeV_advance_spec s x (Config.draw s.draws &&& nn)
  refine ⟨_, rfl, fun b _ => ?bits, hregs, rfl, hpc, ?frame⟩
  case bits => exact (congrArg (·.getLsbD b) hbyte).trans BitVec.getLsbD_and
  case frame => simp [frameBut_iff]

/-! ## The order of result and flag (R160) -/

/-- The state with the other parameters as they are and `P_VF_ORDER` at `o`. -/
def State.withVfOrder (s : State) (o : VfOrder) : State := { s with params := { s.params with vfOrder := o } }

/-- The five flag setters compute result and flag from the registers, whatever the order of the two writes. -/
theorem exec_flagSetter {i : Instr} {x y : Reg} (s : State)
    (hi : i = .addReg x y ∨ i = .subReg x y ∨ i = .subn x y ∨ i = .shr x y ∨ i = .shl x y) :
    ∃ (r : Byte) (f : Bool), (i = .addReg x y → r = s.v[x] + s.v[y]) ∧
      ∀ o, exec i (s.withVfOrder o) = .next ((s.withVfOrder o).writeWithFlag x r f).advance := by
  obtain rfl | rfl | rfl | rfl | rfl := hi
  · exact ⟨_, carryOut s.v[x] s.v[y], fun _ => rfl, fun _ => rfl⟩
  · exact ⟨s.v[x] - s.v[y], notBorrow s.v[x] s.v[y], nofun, fun _ => rfl⟩
  · exact ⟨s.v[y] - s.v[x], notBorrow s.v[y] s.v[x], nofun, fun _ => rfl⟩
  · exact ⟨s.readV (shiftSource s.params x y) >>> 1, lowBitOut (s.readV (shiftSource s.params x y)),
      nofun, fun _ => rfl⟩
  · exact ⟨s.readV (shiftSource s.params x y) <<< 1, highBitOut (s.readV (shiftSource s.params x y)),
      nofun, fun _ => rfl⟩

/-- Writes to two registers can be exchanged. -/
theorem State.writeV_comm (s : State) {x k : Reg} (h : x ≠ k) (a b : Byte) :
    (s.writeV x a).writeV k b = (s.writeV k b).writeV x a := by
  have hval : x.val ≠ k.val := fun e => h (Fin.ext e)
  simp only [State.writeV, Vector.set_comm _ _ hval]

/-- Settles O25: the two orders write the same two registers, or both `VF`, where the later write stays. -/
theorem flagOrderMattersOnlyAtVF : Obligations.FlagOrderMattersOnlyAtVF := by
  intro i x y s hi
  obtain ⟨r, f, hr, hexec⟩ := exec_flagSetter s hi
  refine ⟨_, _, hexec .flagLast, hexec .resultLast, fun hx => ?same, ?flag, fun hx hadd => ?result⟩
  case same => exact congrArg (fun u : State => (u.withVfOrder .resultLast).advance) (s.writeV_comm hx r _).symm
  case flag =>
    have hflag : ((s.withVfOrder .flagLast).writeWithFlag x r f).advance.v[(15 : Reg)] = flagByte f :=
      (State.writeV_get _ flagReg 15 _).trans (if_pos rfl)
    rw [hflag]
    cases f
    · exact .inl rfl
    · exact .inr rfl
  case result =>
    subst hx
    rw [← BitVec.toNat_add, ← hr hadd]
    exact congrArg BitVec.toNat ((State.writeV_get _ 15 15 r).trans (if_pos rfl))

end Sys2Proof.Machine

/-! # Proofs about display instructions (42_display.md): `CLS`, and the same sprite drawn twice -/

namespace Sys2Proof.Machine

/-- Settles O26: the display written is the blank one, and no register is written. -/
theorem clearTurnsEveryPixelOff : Obligations.ClearTurnsEveryPixelOff := by
  intro s
  exact ⟨_, rfl, blankDisplay_get, rfl, by simp [frameBut_iff]⟩

/-- A sprite is read through single bytes, so what it covers depends on what memory reads as only. -/
theorem spriteCovers_congr {m m' : Memory} (h : ∀ a, m'.read a = m.read a) : spriteCovers m' = spriteCovers m := by
  have hread : m'.read = m.read := funext h
  unfold spriteCovers
  rw [hread]

/-- Settles O29: the second `DRAW` XORs the display with the same pixels again. -/
theorem drawingTwiceRestoresTheDisplay : Obligations.DrawingTwiceRestoresTheDisplay := by
  intro x y n s t s' hsprite ht hdisp hi hx hy hmem
  obtain ⟨d, hit, hexec, hpixel, -⟩ := exec_draw_of_inMemory x y hsprite
  cases ht.symm.trans hexec
  have hsprite' : spriteInMemory s' n := by rwa [spriteInMemory, hi]
  obtain ⟨d', hit', hexec', hpixel', hhit'⟩ := exec_draw_of_inMemory x y hsprite'
  rw [spriteCovers_congr hmem, hi, hx, hy, hdisp] at hpixel' hhit'
  have hflag := (State.writeV_get { s' with disp := d' } flagReg 15 (flagByte hit')).trans (if_pos rfl)
  refine ⟨_, hexec', fun px py => ?restored, ?collision⟩
  case restored =>
    calc d'[px][py] = (d[px][py] ^^ _) := hpixel' px py
      _ = s.disp[px][py] := by rw [hpixel, Bool.xor_assoc, Bool.xor_self, Bool.xor_false]
  case collision =>
    refine (Eq.congr_left hflag).trans ((flagByte_eq_one_iff hit').trans (hhit'.trans ?_))
    refine exists_congr fun px => exists_congr fun py => and_congr_right fun hcover => ?_
    change d[px][py] = true ↔ _
    rw [hpixel, hcover, Bool.xor_true, Bool.not_eq_true']

end Sys2Proof.Machine

/-! # Proofs about control flow (43_control_flow.md): jumps, the return from a call, native calls -/

namespace Sys2Proof.Machine

/-- Settles O30: its word is that of its row of R105, and a 12-bit target is zero-extended. -/
theorem jumpSetsPc : Obligations.JumpSetsPc := by
  intro nnn s
  exact ⟨Laws.TableRow.jp nnn rfl, decode_encode rfl, _, rfl, toNat_zextAddr nnn, by simp [frameBut_iff]⟩

theorem val_jumpOffsetReg (p : Params) (nnn : Addr12) :
    (jumpOffsetReg p nnn).val = if p.jumpOffset = .v0 then 0 else nnn.toNat / 256 := by
  unfold jumpOffsetReg
  cases p.jumpOffset
  case v0 => rfl
  case vx =>
    have hnnn := nnn.isLt
    change (nnn.extractLsb' 8 4).toNat = nnn.toNat / 256
    rw [BitVec.extractLsb'_toNat, Nat.shiftRight_eq_div_pow]
    omega

theorem toNat_zextByte (b : Byte) : (zextByte b).toNat = b.toNat :=
  BitVec.toNat_setWidth_of_le (by decide)

/-- The largest sum is 0xFFF + 0xFF, so it does not wrap. -/
theorem toNat_zextAddr_add_zextByte (nnn : Addr12) (b : Byte) :
    (zextAddr nnn + zextByte b).toNat = nnn.toNat + b.toNat := by
  have hnnn := nnn.isLt
  have hb := b.isLt
  rw [BitVec.toNat_add, toNat_zextAddr, toNat_zextByte]
  omega

/-- Settles O31: the offset register is the one `jumpOffsetReg` selects. -/
theorem jumpWithOffsetSetsPc : Obligations.JumpWithOffsetSetsPc := by
  intro nnn s
  exact ⟨_, jumpOffsetReg s.params nnn, rfl, val_jumpOffsetReg s.params nnn, toNat_zextAddr_add_zextByte nnn _,
    by simp [frameBut_iff]⟩

/-- Settles O34: the entry `CALL` pushed is on top when `RET` pops, and those below are as they were. -/
theorem callThenReturnRoundTrip : Obligations.CallThenReturnRoundTrip := by
  intro nnn s t u hs ht hsp hstack
  cases ht.symm.trans (execCall_of_lt nnn hs)
  obtain ⟨htop, hrest⟩ := stack_set_spec s.stack hs (s.pc + 2#16)
  have hu : u.sp.val = s.sp.val + 1 := congrArg Fin.val hsp
  refine ⟨_, execRet_of_pos (by omega), ?pc, Fin.ext (by simp [hu]), fun j hj => ?entries⟩
  case pc =>
    have hpushed : u.stack[s.sp.val] = s.pc + 2#16 := (hstack ⟨s.sp.val, hs⟩ (Nat.lt_succ_self _)).trans htop
    simpa [hu] using hpushed
  case entries => exact (hstack j (Nat.lt_succ_of_lt hj)).trans (hrest j (Nat.ne_of_lt hj))

/-- Settles O36: the record `raise` writes, whose opcode is the word of the descriptor. -/
theorem nativeCallIsDecodeError : Obligations.NativeCallIsDecodeError := by
  intro nnn s
  have hword : (encode (.sys nnn)).toNat = 4096 * 0 + nnn.toNat := toNat_encodeNNN 0x0#4 nnn
  exact ⟨_, _, rfl, rfl, rfl, rfl, congrArg some (by omega), rfl, rfl, rfl, frameBut_fatal [] s _ _, rfl⟩

end Sys2Proof.Machine

/-! # Proofs about keys (44_keys_timers.md, 60_exceptions.md): the key wait, `KEY`, the halted engine -/

namespace Sys2Proof.Machine

/-! ## `LD Vx, K`, one rule per outcome (R253, R255) -/

section KeyWait
variable {s : State} (x : Reg)

theorem exec_ldVxK_of_held {k : Key} (hp : s.params.keyWait = .level) (hk : lowestKey s.key = some k) :
    exec (.ldVxK x) s = .next (s.writeV x (keyByte k)).advance := by
  simp only [exec, execLdVxK, hp, hk]

theorem exec_ldVxK_of_none_held (hp : s.params.keyWait = .level) (hk : lowestKey s.key = none) :
    exec (.ldVxK x) s = .next { s with await := some x } := by
  simp only [exec, execLdVxK, hp, hk]

theorem exec_ldVxK_of_edge (hp : s.params.keyWait = .edge) :
    exec (.ldVxK x) s = .next { s with await := some x, waitPrev := s.key } := by
  simp only [exec, execLdVxK, hp]

end KeyWait

/-- Settles O38: the parameter and the lowest held key decide among the three outcomes. -/
theorem keyWaitLoadsOrBlocks : Obligations.KeyWaitLoadsOrBlocks := by
  intro x s
  refine ⟨fun hp k hk hlower => ?loads, fun hp hnone => ?blocks, fun hp => ?edge⟩
  case loads =>
    have hlow := (lowestKey_eq_some_iff s.key k).mpr ⟨hk, hlower⟩
    obtain ⟨hbyte, hrest⟩ := writeV_advance_spec s x (keyByte k)
    exact ⟨_, exec_ldVxK_of_held x hp hlow, (congrArg BitVec.toNat hbyte).trans (toNat_keyByte k), hrest⟩
  case blocks =>
    exact ⟨_, exec_ldVxK_of_none_held x hp ((lowestKey_eq_none_iff s.key).mpr hnone), rfl, by simp [frameBut_iff]⟩
  case edge => exact ⟨_, exec_ldVxK_of_edge x hp, rfl, rfl, by simp [frameBut_iff]⟩

/-! ## `KEY` (R332) and the halted engine (R131, R317) -/

theorem State.setKey_get (s : State) (k j : Key) (b : Bool) :
    (s.setKey k b).key[j] = if j = k then b else s.key[j] := by
  simp only [State.setKey_key, Fin.getElem_fin, Vector.getElem_set, Fin.ext_iff, eq_comm]

theorem frameBut_setKey (s : State) (k : Key) (b : Bool) : FrameBut [.key] s (s.setKey k b) := by
  simp [frameBut_iff]

/-- Settles O47: the flag written reads back, and no part but the latch is written. -/
theorem keyWritesOneLatchFlag : Obligations.KeyWritesOneLatchFlag :=
  fun k b s => ⟨fun j => s.setKey_get k j b, frameBut_setKey s k b⟩

/-- Settles O7: `STEP` and `TICK` look at the record first, `KEY` does not. -/
theorem haltedIsAbsorbing : Obligations.HaltedIsAbsorbing := by
  intro s r hr
  refine ⟨step_of_halted hr, by rw [State.status, hr], State.tick_of_halted (by simp [hr]),
    fun k b => ⟨?flag, frameBut_setKey s k b⟩⟩
  case flag => exact (s.setKey_get k k b).trans (if_pos rfl)

end Sys2Proof.Machine

/-! # Proofs about the index register and memory (45_index_memory.md): `I`, block store and block load -/

namespace Sys2Proof.Machine

/-! ## Setting `I` (R280 to R282) -/

/-- All that a write of `I` leaves behind. -/
theorem writeI_advance_spec (s : State) (w : Word) :
    (s.writeI w).advance.pc = s.pc + 2#16 ∧ FrameBut [.i, .pc] s (s.writeI w).advance :=
  ⟨by simp, by simp [frameBut_iff]⟩

/-- The low nibble times 5 is at most 75, so it does not wrap. -/
theorem toNat_glyphAddress (b : Byte) : (glyphAddress b).toNat = b.toNat % 16 * 5 := by
  have hnibble : (b &&& 0x0F#8).toNat = b.toNat % 16 := by
    rw [BitVec.toNat_and]
    exact Nat.and_two_pow_sub_one_eq_mod b.toNat 4
  rw [glyphAddress, BitVec.toNat_mul, toNat_zextByte, hnibble]
  exact Nat.mod_eq_of_lt (by change _ * 5 < 2 ^ 16; omega)

/-- Settles O40: one write of `I` and the advance, the value as a number. -/
theorem indexInstructionsSetI : Obligations.IndexInstructionsSetI := by
  intro x nnn s
  refine ⟨⟨_, rfl, toNat_zextAddr nnn, writeI_advance_spec s _⟩, ⟨_, rfl, ?add, writeI_advance_spec s _⟩,
    ⟨_, rfl, toNat_glyphAddress s.v[x], writeI_advance_spec s _⟩⟩
  case add =>
    rw [← toNat_zextByte]
    exact BitVec.toNat_add _ _

/-! ## Block transfers (R285 to R287) -/

section BlockTransfer
variable (s : State) (x : Reg)

theorem toNat_indexAfter : (indexAfter s.params s.i x).toNat =
    if s.params.ldstI = .increment then (s.i.toNat + x.val + 1) % 65536 else s.i.toNat := by
  unfold indexAfter
  cases s.params.ldstI
  case unchanged => rfl
  case increment =>
    rw [BitVec.toNat_add, BitVec.toNat_ofNat]
    simp only [if_true]
    omega

theorem getElem_firstRegs {k : Reg} (hk : k ≤ x) :
    (firstRegs s x)[k.val]'(by rw [length_firstRegs]; exact Nat.lt_succ_of_le hk) = s.v[k] := by
  simp [firstRegs]

variable {s}

theorem exec_ldMemVx_of_storeAllowed (h : storeAllowed s (x.val + 1)) :
    exec (.ldMemVx x) s =
      .next ((s.store s.i.toNat (firstRegs s x)).writeI (indexAfter s.params s.i x)).advance := by
  simp only [exec, execLdMemVx, (checkWritable_none_iff s _ (Nat.succ_pos _)).mpr h]

theorem exec_ldVxMem_of_inMemory (h : s.i.toNat + x.val + 1 ≤ 0x1000) :
    exec (.ldVxMem x) s = .next ((s.loadRegs s.i.toNat x).writeI (indexAfter s.params s.i x)).advance := by
  simp only [exec, execLdVxMem, checkRange_eq _ _ (Nat.succ_pos _), if_pos (Nat.add_assoc .. ▸ h)]

end BlockTransfer

/-- Settles O42: the run stored is `V0` to `Vx`, each the byte read at its place. -/
theorem blockStoreWritesRegisters : Obligations.BlockStoreWritesRegisters := by
  intro x s hm h
  have hlen := length_firstRegs s x
  obtain ⟨hread, hrest, -⟩ := store_advance_spec (bytes := firstRegs s x) hm (hlen ▸ h)
  refine ⟨_, exec_ldMemVx_of_storeAllowed x h, fun k hk => ?bytes, hlen ▸ hrest,
    toNat_indexAfter s x, rfl, ?frame⟩
  case bytes => exact (hread k.val (by rw [hlen]; exact Nat.lt_succ_of_le hk)).trans (getElem_firstRegs s x hk)
  case frame => simp [frameBut_iff]

/-- Settles O43: the registers up to `Vx` are loaded, and memory is only read. -/
theorem blockLoadReadsRegisters : Obligations.BlockLoadReadsRegisters := by
  intro x s h
  exact ⟨_, exec_ldVxMem_of_inMemory x h, fun k => s.loadRegs_get s.i.toNat x k, toNat_indexAfter s x, rfl,
    by simp [frameBut_iff]⟩

/-- Settles O45: the two bytes a fetch at `I` reads are those stored from `V0` and `V1`. -/
theorem storedWordIsFetchedNext : Obligations.StoredWordIsFetchedNext := by
  intro x s t hm h hx ht
  obtain ⟨t', ht', hread, -⟩ := blockStoreWritesRegisters x s hm h
  cases ht.symm.trans ht'
  calc opcodeAt { t with pc := s.i }
      = joinBytes (t.mem.read s.i.toNat) (t.mem.read (s.i.toNat + 1)) := (fetchWord_eq _).symm
    _ = s.v[(0 : Reg)] ++ s.v[(1 : Reg)] := congrArg₂ joinBytes (hread 0 (Fin.zero_le x)) (hread 1 hx)

end Sys2Proof.Machine
